-- ==== Sys2Proof/Word.lean ====
section
/-! DEFINITION. The word types of the block and of its host (spec/00_scope.md R7, spec/10_state.md R24). -/

namespace Sys2Proof

/-- One byte: a Base64 symbol, or an entry of a lookup table (R7). -/
abbrev Byte := BitVec 8

/-- A Base64 value, 0 to 63 (R7). -/
abbrev Uint6 := BitVec 6

/-- A 12-bit word: a Uint12 value or a Float12 word (R7, R13). -/
abbrev Uint12 := BitVec 12

/-- A 64-bit word: a binary64 word, an operand field or a data field (R7, R11). -/
abbrev Word64 := BitVec 64

/-- The request bus: op in bits 66 to 64, operand in bits 63 to 0 (R24, R40). -/
abbrev Request := BitVec 67

/-- The response bus: status in bits 65 and 64, data in bits 63 to 0 (R24, R44). -/
abbrev Response := BitVec 66

end Sys2Proof
end

