-- ==== Sys2Proof/Machine/Flags.lean ====
section
/-! DEFINITION. The status field and the layout of a response (spec/30_encoding.md R44 to R46). The
block has no other flag (spec/10_state.md R17). -/

namespace Sys2Proof.Machine

/-- The status codes of R46. Code 0b10 is reserved and never produced, so it has no name here. -/
inductive Status where
  | ok | invalidSymbol | illegalOp
  deriving DecidableEq, Repr

/-- The codes of R46. -/
def Status.code : Status → BitVec 2
  | .ok => 0b00
  | .invalidSymbol => 0b01
  | .illegalOp => 0b11

/-- A response word: `status = rsp[65:64]`, `data = rsp[63:0]` (R44). -/
def mkResponse (st : Status) (data : Word64) : Response := st.code ++ data

/-- `rsp[65:64]` (R44). -/
def statusOf (rsp : Response) : BitVec 2 := rsp.extractLsb' 64 2

/-- `rsp[63:0]` (R44). -/
def dataOf (rsp : Response) : Word64 := rsp.extractLsb' 0 64

/-- The status of `B64_DEC`'s value: INVALID_SYMBOL for the sentinel 255, OK for the rest (R63). -/
def statusOfValue (d : Byte) : Status := if d = 255 then .invalidSymbol else .ok

end Sys2Proof.Machine
end

