-- ==== Sys2Proof/Config.lean ====
section
/-! DEFINITION. What the spec leaves free, as constants without a body: no proof can see a value of them
(spec/00_scope.md R8, R12; notes/assumptions/3.md, 18.md). -/

namespace Sys2Proof

/-- `draw_N()` of R12: the `k`-th unspecified value of `width` bits. Nothing constrains it.
State counts the draws made, and a draw reads this constant at that count. -/
opaque Config.draw (width : Nat) (k : Nat) : BitVec width

/-- `P_LATENCY` of R8: the time from a request to its response. No rule depends on it (R128),
and nothing in the model reads it. -/
opaque Config.latency : Nat

end Sys2Proof
end

