-- ==== Sys2Proof/Machine/State.lean ====
section
/-! DEFINITION. The state of the block and of its host, as plain data (spec/10_state.md;
spec/20_memory.md R26; spec/48_host_stream_driver.md R96; spec/60_exceptions.md R112), the reasons a
step can stop, and reset. -/

namespace Sys2Proof.Machine

/-- Direction of a streaming call (R96). -/
inductive Dir where
  | decode | encode
  deriving DecidableEq, Repr

/-- Whether leading lines are still being skipped (R96; DECODE only). -/
inductive Phase where
  | skip | data
  deriving DecidableEq, Repr

/-- What a `resume()` returns (R104, R105). The buffer of `Done(out)` is the call's output buffer. -/
inductive Returned where
  | yielded (processed total : Nat)
  | done
  deriving DecidableEq, Repr

/-- The host state of a streaming call (R96). `in` and `out` stand in host buffers, named here by
their numbers. `returned` lists what `resume()` has returned, newest first. -/
structure Call where
  dir : Dir
  input : Nat
  pos : Nat
  processed : Nat
  total : Nat
  sinceYield : Nat
  phase : Phase
  lines : Nat
  pending : Option Byte
  output : Nat
  outCount : Nat
  skipLineCount : Nat
  suspendCount : Nat
  returned : List Returned
  deriving DecidableEq, Repr

/-- Which operation takes a symbol pair (R33). -/
inductive PairOp where
  | u12Dec | f12Dec
  deriving DecidableEq, Repr

/-- One step of the host: the entries of a program (spec/95_test_vectors.md section 3), which is the
host's list and no code of the block (R16). See notes/assumptions/10.md. -/
inductive HostStep where
  /-- present a request word on the request bus (R40) -/
  | request (req : Request)
  /-- allocate a byte buffer with this content (R26) -/
  | newBytes (bytes : List Byte)
  /-- allocate a number buffer with this content (R26) -/
  | newNums (nums : List Word64)
  /-- allocate a byte buffer from strings of character codes, joined in order (R98) -/
  | newText (strings : List (List Nat))
  /-- `MemWrite(buf, addr, 1, v)` (R12) -/
  | memWrite (buf addr : Nat) (v : Byte)
  /-- write one element of a number buffer (R26) -/
  | numWrite (buf index : Nat) (v : Word64)
  /-- read one byte and send it as `B64_DEC` (R33) -/
  | sendByte (buf addr : Nat)
  /-- read two bytes and send them as `U12_DEC` or `F12_DEC`, the first read first (R33) -/
  | sendPair (op : PairOp) (buf addr0 addr1 : Nat)
  /-- read one element and send it as `F12_ENC` (R33) -/
  | sendNum (buf index : Nat)
  /-- write the response's `data[7:0]` (R33, row B64_ENC) -/
  | takeByte (buf addr : Nat)
  /-- write the response's two symbols into a slot (R28) -/
  | takePair (buf offset : Nat)
  /-- write the response's `data[63:0]` into a number buffer (R33, row F12_DEC) -/
  | takeNum (buf index : Nat)
  /-- begin a DECODE call on a byte buffer (R97) -/
  | startDecode (input skipLineCount suspendCount : Nat)
  /-- begin an ENCODE call on a number buffer (R97) -/
  | startEncode (input suspendCount : Nat)
  /-- write the progress accumulator of a call (R109) -/
  | writeProgress (call processed total : Nat)
  /-- `resume()` of a call (R106) -/
  | resume (call : Nat)
  deriving DecidableEq, Repr

/-- Everything the spec gives the block and its host. -/
structure State where
  /-- the request bus (R24) -/
  req : Request
  /-- the response bus (R24) -/
  rsp : Response
  /-- the faulted mark (R112) -/
  faulted : Bool
  /-- the model's own: how many free values have been drawn (notes/assumptions/3.md) -/
  draws : Nat
  /-- the model's own: the host steps still to be done (R16, notes/assumptions/9.md) -/
  script : List HostStep
  /-- the host's byte buffers (R26) -/
  byteBufs : List (List Byte)
  /-- the host's number buffers (R26) -/
  numBufs : List (List Word64)
  /-- the streaming calls begun so far, in order (R96) -/
  calls : List Call
  deriving DecidableEq, Repr

/-- Why the machine stops with a fault. -/
inductive Fault where
  /-- `fault ILLEGAL_OP` (R12, R112): raised by a request with op 7, and by any step of a marked
  state. It carries the state it leaves: marked faulted, the response on the bus. SAFE: nothing can
  be proved of what follows (spec/92_eei_decisions.md D8). -/
  | illegalOp (left : State)
  deriving DecidableEq, Repr

/-- Why a step has no meaning. -/
inductive Refusal where
  /-- an operation whose arm has no meaning yet; raised by no arm of this model. SAFE. -/
  | notModelled (mnemonic : String)
  /-- raised by a step when the host has nothing left to do: the block takes no step of its own
  (R14). SAFE. -/
  | noHostStep
  /-- raised by a host access outside a buffer, or to a buffer that does not exist (R27, R28). SAFE. -/
  | outsideBuffer
  /-- raised by the start of a streaming call with suspendCount = 0 (R97). SAFE. -/
  | suspendCountZero
  /-- raised by a host step that writes the input, the output or the progress accumulator of an
  unfinished call, or begins a call on such an output (R109). SAFE. -/
  | heldByCall
  /-- raised by a host step that names a call that was never begun (R96). SAFE. -/
  | noSuchCall
  /-- raised by a resume of a call that has returned Done, which is returned once (R105). SAFE. -/
  | callFinished
  deriving DecidableEq, Repr

/-- The machine right after reset: the response bus holds a draw of 66 bits (R25, R124), nothing is
marked faulted, and the host has no buffers, no calls and nothing to do. The request bus's 0, the
counter's 1 and the host's empty lists are the model's (notes/assumptions/1.md, 3.md, 9.md, 11.md). -/
def State.reset : State where
  req := 0
  rsp := Config.draw 66 0
  faulted := false
  draws := 1
  script := []
  byteBufs := []
  numBufs := []
  calls := []

end Sys2Proof.Machine
end

