-- ==== Sys2Proof/Machine/Ops.lean ====
section
/-! DEFINITION. The named operations over the block's two buses, the draws and the faulted mark
(spec/00_scope.md R12; spec/30_encoding.md R44; spec/60_exceptions.md R112), and the sequencing of
outcomes. No exception is ever taken and none is returned from (R110, R115): the one abnormal end is
the fault of R112, `State.illegalOp`. -/

namespace Sys2Proof.Machine

/-- The host drives a request word onto the request bus (R24). -/
def State.present (w : Request) (s : State) : State := { s with req := w }

/-- The block drives the response bus: `rsp.status <- st`, `rsp.data <- data` (R12, R44). -/
def State.respond (st : Status) (data : Word64) (s : State) : State :=
  { s with rsp := mkResponse st data }

/-- `n` free values have been drawn, so that the next draws are other ones (R12). -/
def State.drew (n : Nat) (s : State) : State := { s with draws := s.draws + n }

/-- The `draw_N()` that this state makes next (R12). -/
def State.draw (width : Nat) (s : State) : BitVec width := Config.draw width s.draws

/-- A response INVALID_SYMBOL whose low `width` data bits are `draw_width()`, the others 0 (R45). -/
def State.respondDraw (width : Nat) (s : State) : State :=
  (s.respond .invalidSymbol ((s.draw width).setWidth 64)).drew 1

/-- What op 7 leaves: the response ILLEGAL_OP with `draw_64()` (R57), and the mark, which is never
cleared (R112). -/
def State.illegalOp (s : State) : State :=
  { (s.respond .illegalOp (s.draw 64)).drew 1 with faulted := true }

/-- The host has `rest` left to do. -/
def State.withScript (rest : List HostStep) (s : State) : State := { s with script := rest }

/-- The streaming calls are now `cs`. -/
def State.withCalls (cs : List Call) (s : State) : State := { s with calls := cs }

/-- The byte buffers are now `bs`. -/
def State.withBytes (bs : List (List Byte)) (s : State) : State := { s with byteBufs := bs }

/-- The number buffers are now `ns`. -/
def State.withNums (ns : List (List Word64)) (s : State) : State := { s with numBufs := ns }

/-- Go on with `f` after a next state; a fault or a refusal stands. -/
def andThen {α β φ ρ : Type} (o : Host.Outcome α φ ρ) (f : α → Host.Outcome β φ ρ) :
    Host.Outcome β φ ρ :=
  match o with
  | .next a => f a
  | .fault r => .fault r
  | .refused r => .refused r

/-- Go on with a value that is there; refuse with `r` where there is none. -/
def orRefuse {α β : Type} (r : Refusal) (o : Option α) (f : α → Host.Outcome β Fault Refusal) :
    Host.Outcome β Fault Refusal :=
  match o with
  | some a => f a
  | none => .refused r

end Sys2Proof.Machine
end

