-- ==== Sys2Proof/Machine/HostBuffers.lean ====
section
/-! DEFINITION. The host's buffers (spec/20_memory.md R26 to R29): reads, writes, the two-byte slot, and
which buffers an unfinished streaming call holds (spec/48_host_stream_driver.md R109). -/

namespace Sys2Proof.Machine

/-! ## Reads and writes -/

/-- `MemRead(buf, a, 1)` (R27); none outside the buffer. -/
def State.byteAt (s : State) (buf a : Nat) : Option Byte :=
  match s.byteBufs[buf]? with
  | some bytes => bytes[a]?
  | none => none

/-- Element `i` of a number buffer (R27); none outside the buffer. -/
def State.numAt (s : State) (buf i : Nat) : Option Word64 :=
  match s.numBufs[buf]? with
  | some nums => nums[i]?
  | none => none

/-- `MemWrite(buf, a, 1, v)` (R12); none outside the buffer. -/
def State.putByte (buf a : Nat) (v : Byte) (s : State) : Option State :=
  match s.byteBufs[buf]? with
  | some bytes =>
    if a < bytes.length then some (s.withBytes (s.byteBufs.set buf (bytes.set a v))) else none
  | none => none

/-- Writes element `i` of a number buffer; none outside the buffer. -/
def State.putNum (buf i : Nat) (v : Word64) (s : State) : Option State :=
  match s.numBufs[buf]? with
  | some nums =>
    if i < nums.length then some (s.withNums (s.numBufs.set buf (nums.set i v))) else none
  | none => none

/-- The encoder's slot (R28): the two symbols in the response's `data[15:8]` and `data[7:0]`, the
first at the lower address (R29); none unless `o + 1 < len(buf)`, so both are written or neither. -/
def State.putSlot (buf o : Nat) (data : Word64) (s : State) : Option State :=
  match s.byteBufs[buf]? with
  | some bytes =>
    if o + 1 < bytes.length then
      some (s.withBytes (s.byteBufs.set buf
        ((bytes.set o (data.extractLsb' 8 8)).set (o + 1) (data.extractLsb' 0 8))))
    else none
  | none => none

/-- Strings of character codes joined in order with nothing inserted; a code above 0xFF is taken as
the byte 0xFF (R98). -/
def joinText (strings : List (List Nat)) : List Byte :=
  strings.flatten.map fun code => if 0xFF < code then 0xFF else BitVec.ofNat 8 code

/-- `n` bytes of any value, the draws from the `k`-th on: a fresh output buffer (R109). -/
def freshBytes (k n : Nat) : List Byte := (List.range n).map fun i => Config.draw 8 (k + i)

/-- `n` elements of any value, the draws from the `k`-th on: a fresh output buffer (R109). -/
def freshNums (k n : Nat) : List Word64 := (List.range n).map fun i => Config.draw 64 (k + i)

/-! ## What an unfinished call holds -/

/-- The call has returned Done (R105). -/
def Call.finished (c : Call) : Bool :=
  match c.returned with
  | .done :: _ => true
  | _ => false

/-- The unfinished call's input is this byte buffer. -/
def Call.readsBytes (buf : Nat) (c : Call) : Bool :=
  !c.finished && c.dir == .decode && c.input == buf

/-- The unfinished call's output is this byte buffer. -/
def Call.fillsBytes (buf : Nat) (c : Call) : Bool :=
  !c.finished && c.dir == .encode && c.output == buf

/-- The unfinished call's input is this number buffer. -/
def Call.readsNums (buf : Nat) (c : Call) : Bool :=
  !c.finished && c.dir == .encode && c.input == buf

/-- The unfinished call's output is this number buffer. -/
def Call.fillsNums (buf : Nat) (c : Call) : Bool :=
  !c.finished && c.dir == .decode && c.output == buf

/-- The byte buffer is the output of an unfinished call. -/
def State.bytesFilling (s : State) (buf : Nat) : Bool := s.calls.any (Call.fillsBytes buf)

/-- The number buffer is the output of an unfinished call. -/
def State.numsFilling (s : State) (buf : Nat) : Bool := s.calls.any (Call.fillsNums buf)

/-- The byte buffer is the input or the output of an unfinished call, so the caller may not write
it (R109). -/
def State.bytesHeld (s : State) (buf : Nat) : Bool :=
  s.calls.any (Call.readsBytes buf) || s.bytesFilling buf

/-- The number buffer is the input or the output of an unfinished call, so the caller may not write
it (R109). -/
def State.numsHeld (s : State) (buf : Nat) : Bool :=
  s.calls.any (Call.readsNums buf) || s.numsFilling buf

/-- A host read of a byte, with the state after it: a draw where the buffer is the output of an
unfinished call, whose content is not defined to the caller (R109). -/
def State.hostByte (buf a : Nat) (s : State) : Option (Byte × State) :=
  match s.byteAt buf a with
  | some v => if s.bytesFilling buf then some (s.draw 8, s.drew 1) else some (v, s)
  | none => none

/-- A host read of a number, with the state after it: a draw where the buffer is the output of an
unfinished call (R109). -/
def State.hostNum (buf i : Nat) (s : State) : Option (Word64 × State) :=
  match s.numAt buf i with
  | some v => if s.numsFilling buf then some (s.draw 64, s.drew 1) else some (v, s)
  | none => none

/-- A host write of a byte buffer: refused while an unfinished call holds the buffer (R109) and
outside the buffer (R27, R28). -/
def State.hostWriteBytes (buf : Nat) (put : Option State) (s : State) :
    Host.Outcome State Fault Refusal :=
  if s.bytesHeld buf then .refused .heldByCall
  else orRefuse .outsideBuffer put .next

/-- A host write of a number buffer: refused while an unfinished call holds the buffer (R109) and
outside the buffer (R27). -/
def State.hostWriteNums (buf : Nat) (put : Option State) (s : State) :
    Host.Outcome State Fault Refusal :=
  if s.numsHeld buf then .refused .heldByCall
  else orRefuse .outsideBuffer put .next

end Sys2Proof.Machine
end

