-- ==== Sys2Proof/Syntax.lean ====
section
/-! DEFINITION. The operations of the block: one constructor for each row of spec/opcode_table.json
(spec/30_encoding.md R41), each carrying the operand fields of R42. -/

namespace Sys2Proof

/-- The eight rows of the operation table (R41), with the operand fields of R42. -/
inductive Instr where
  /-- `B64_ENC v` (R62) -/
  | b64Enc (v : Uint6)
  /-- `B64_DEC b` (R63) -/
  | b64Dec (b : Byte)
  /-- `U12_ENC v` (R66) -/
  | u12Enc (v : Uint12)
  /-- `U12_DEC b0, b1` (R67): first symbol, second symbol -/
  | u12Dec (b0 b1 : Byte)
  /-- `F12_ENC x` (R70): a binary64 word -/
  | f12Enc (x : Word64)
  /-- `F12_DEC b0, b1` (R92): first symbol, second symbol -/
  | f12Dec (b0 b1 : Byte)
  /-- `F12_DEC_RAW w` (R91): a Float12 word -/
  | f12DecRaw (w : Uint12)
  /-- op 7, the reserved row (R57): it names no operation and has no operand -/
  | reserved
  deriving DecidableEq, Repr

end Sys2Proof
end

