-- ==== Sys2Proof/WellFormed.lean ====
section
/-! DEFINITION. Which instructions a host may issue (spec/30_encoding.md R41, R57, R58;
spec/70_reset_and_hazards.md R127; notes/assumptions/17.md). -/

namespace Sys2Proof

/-- The instruction is one of the seven operations of R41. Op 7 names no operation (R57) and a host
must never issue it (R127). Every operand value is legal (R58), and the operand types hold exactly
the values of R42, so there is nothing else to check. -/
def Instr.isOperation : Instr → Bool
  | .b64Enc _ => true
  | .b64Dec _ => true
  | .u12Enc _ => true
  | .u12Dec _ _ => true
  | .f12Enc _ => true
  | .f12Dec _ _ => true
  | .f12DecRaw _ => true
  | .reserved => false

/-- A well-formed instruction is an operation of R41. -/
abbrev Instr.WellFormed (i : Instr) : Prop := i.isOperation = true

end Sys2Proof
end

