-- ==== Sys2Proof/Decode.lean ====
section
/-! DEFINITION. The request word: decoder, encoder and assembler (spec/30_encoding.md R40 to R43, R57, R60). -/

namespace Sys2Proof

/-- `op = req[66:64]` (R40). -/
def Request.op (r : Request) : BitVec 3 := r.extractLsb' 64 3

/-- `opnd = req[63:0]` (R40). -/
def Request.opnd (r : Request) : Word64 := r.extractLsb' 0 64

/-- The request word made of an operation number and an operand field (R40). -/
def mkRequest (op : BitVec 3) (opnd : Word64) : Request := op ++ opnd

/-- The operation a request word selects, with its operands (R41, R42). Operand bits outside the
fields are ignored (R43), and op 7 is the reserved row, whatever its operand (R57, R113). -/
def decodeRequest (r : Request) : Instr :=
  match r.op.toNat with
  | 0 => .b64Enc (r.opnd.extractLsb' 0 6)
  | 1 => .b64Dec (r.opnd.extractLsb' 0 8)
  | 2 => .u12Enc (r.opnd.extractLsb' 0 12)
  | 3 => .u12Dec (r.opnd.extractLsb' 8 8) (r.opnd.extractLsb' 0 8)
  | 4 => .f12Enc r.opnd
  | 5 => .f12Dec (r.opnd.extractLsb' 8 8) (r.opnd.extractLsb' 0 8)
  | 6 => .f12DecRaw (r.opnd.extractLsb' 0 12)
  | _ => .reserved

/-- Why a bit pattern is no request. -/
inductive DecodeError where
  /-- a bit above bit 66 is set: a request has exactly 67 bits and one format (R40, R7) -/
  | widerThanRequest
  deriving DecidableEq, Repr

/-- Decoding of any bit pattern: a request of 67 bits, or the name of what is wrong with it. -/
def decode (w : Nat) : Except DecodeError Instr :=
  if w < 2 ^ 67 then .ok (decodeRequest (BitVec.ofNat 67 w)) else .error .widerThanRequest

/-- The instruction read from a pattern of `nbits` bits, the bits above them zero. -/
def decodeTableWord (nbits w : Nat) : Option Instr :=
  match decode (w % 2 ^ nbits) with
  | .ok i => some i
  | .error _ => none

/-- The operation number of each row (R41). -/
def Instr.opNumber : Instr → BitVec 3
  | .b64Enc _ => 0
  | .b64Dec _ => 1
  | .u12Enc _ => 2
  | .u12Dec _ _ => 3
  | .f12Enc _ => 4
  | .f12Dec _ _ => 5
  | .f12DecRaw _ => 6
  | .reserved => 7

/-- The operand field of each row: the fields of R42, every ignored bit 0 (R60). -/
def Instr.operandField : Instr → Word64
  | .b64Enc v => v.setWidth 64
  | .b64Dec b => b.setWidth 64
  | .u12Enc v => v.setWidth 64
  | .u12Dec b0 b1 => (b0 ++ b1).setWidth 64
  | .f12Enc x => x
  | .f12Dec b0 b1 => (b0 ++ b1).setWidth 64
  | .f12DecRaw w => w.setWidth 64
  | .reserved => 0

/-- The request word of an instruction, `{op, opnd}` (R40, R60). -/
def encode (i : Instr) : Request := mkRequest i.opNumber i.operandField

/-- The mnemonics of R41. The table names the reserved row RESERVED. -/
def Instr.mnemonic : Instr → String
  | .b64Enc _ => "B64_ENC"
  | .b64Dec _ => "B64_DEC"
  | .u12Enc _ => "U12_ENC"
  | .u12Dec _ _ => "U12_DEC"
  | .f12Enc _ => "F12_ENC"
  | .f12Dec _ _ => "F12_DEC"
  | .f12DecRaw _ => "F12_DEC_RAW"
  | .reserved => "RESERVED"

/-! ## The assembler of R60 -/

/-- The named operands of the `f64:` form (R60). -/
inductive F64Name where
  | nan | inf | negInf | negZero
  deriving DecidableEq, Repr

/-- The words the `f64:` names stand for (R60). -/
def F64Name.word : F64Name → Word64
  | .nan => 0x7FF8000000000000
  | .inf => 0x7FF0000000000000
  | .negInf => 0xFFF0000000000000
  | .negZero => 0x8000000000000000

/-- The operand forms of R60. A decimal after `f64:` is shorthand for a word the spec states, so it
is written here by that word. -/
inductive AsmOperand where
  /-- a decimal or hex integer: an unsigned field value -/
  | int (n : Nat)
  /-- `'c'`: the byte code of a character -/
  | char (c : Byte)
  /-- `f64:0x…`: a binary64 word -/
  | f64 (x : Word64)
  /-- `f64:nan` and the other names -/
  | f64Name (n : F64Name)
  deriving DecidableEq, Repr

/-- The unsigned value an operand form stands for. -/
def AsmOperand.value : AsmOperand → Nat
  | .int n => n
  | .char c => c.toNat
  | .f64 x => x.toNat
  | .f64Name n => n.word.toNat

/-- One line `MNEMONIC operand[, operand]` (R60). -/
structure AsmLine where
  mnemonic : String
  operands : List AsmOperand
  deriving DecidableEq, Repr

/-- One operand, taken as the operand field: a value in its field leaves every ignored bit 0. -/
def asmOne (op : BitVec 3) : List AsmOperand → Option Request
  | [a] => if a.value < 2 ^ 64 then some (mkRequest op (BitVec.ofNat 64 a.value)) else none
  | _ => none

/-- Two symbols, the first in the higher byte (R42). -/
def asmPair (op : BitVec 3) : List AsmOperand → Option Request
  | [a, b] =>
    if a.value < 2 ^ 8 ∧ b.value < 2 ^ 8 then
      some (mkRequest op (BitVec.ofNat 64 (a.value * 2 ^ 8 + b.value)))
    else none
  | _ => none

/-- The request word a line assembles to (R60); none where it is no line of R60. -/
def AsmLine.assemble (l : AsmLine) : Option Request :=
  if l.mnemonic = "B64_ENC" then asmOne 0 l.operands
  else if l.mnemonic = "B64_DEC" then asmOne 1 l.operands
  else if l.mnemonic = "U12_ENC" then asmOne 2 l.operands
  else if l.mnemonic = "U12_DEC" then asmPair 3 l.operands
  else if l.mnemonic = "F12_ENC" then asmOne 4 l.operands
  else if l.mnemonic = "F12_DEC" then asmPair 5 l.operands
  else if l.mnemonic = "F12_DEC_RAW" then asmOne 6 l.operands
  else none

end Sys2Proof
end

