-- ==== Sys2Proof/Machine/Rom.lean ====
section
/-! DEFINITION. The two lookup ROMs (spec/10_state.md R20, R21; contents spec/30_encoding.md R48, R49).
They are constants of the machine: no request writes them (notes/assumptions/5.md). -/

namespace Sys2Proof.Machine

/-- `ENC_TABLE`, entry by entry (R48): the byte of the i-th alphabet symbol. -/
def encTable : List Byte :=
  [0x41, 0x42, 0x43, 0x44, 0x45, 0x46, 0x47, 0x48] ++
    [0x49, 0x4A, 0x4B, 0x4C, 0x4D, 0x4E, 0x4F, 0x50] ++
    [0x51, 0x52, 0x53, 0x54, 0x55, 0x56, 0x57, 0x58] ++
    [0x59, 0x5A, 0x61, 0x62, 0x63, 0x64, 0x65, 0x66] ++
    [0x67, 0x68, 0x69, 0x6A, 0x6B, 0x6C, 0x6D, 0x6E] ++
    [0x6F, 0x70, 0x71, 0x72, 0x73, 0x74, 0x75, 0x76] ++
    [0x77, 0x78, 0x79, 0x7A, 0x30, 0x31, 0x32, 0x33] ++
    [0x34, 0x35, 0x36, 0x37, 0x38, 0x39, 0x2B, 0x2F]

/-- `DEC_TABLE`, entry by entry (R49), one list for each high hex digit: a value 0 to 63, or the
INVALID sentinel 255. -/
def decTable : List Byte :=
  List.replicate 16 255 ++
    List.replicate 16 255 ++
    [255, 255, 255, 255, 255, 255, 255, 255, 255, 255, 255, 62, 255, 62, 255, 63] ++
    [52, 53, 54, 55, 56, 57, 58, 59, 60, 61, 255, 255, 255, 255, 255, 255] ++
    [255, 0, 1, 2, 3, 4, 5, 6, 7, 8, 9, 10, 11, 12, 13, 14] ++
    [15, 16, 17, 18, 19, 20, 21, 22, 23, 24, 25, 255, 255, 255, 255, 63] ++
    [255, 26, 27, 28, 29, 30, 31, 32, 33, 34, 35, 36, 37, 38, 39, 40] ++
    [41, 42, 43, 44, 45, 46, 47, 48, 49, 50, 51, 255, 255, 255, 255, 255] ++
    List.replicate 16 255 ++
    List.replicate 16 255 ++
    List.replicate 16 255 ++
    List.replicate 16 255 ++
    List.replicate 16 255 ++
    List.replicate 16 255 ++
    List.replicate 16 255 ++
    List.replicate 16 255

/-- `ENC_TABLE[i]` (R12). The 64 entries answer every 6-bit index. -/
def encAt (i : Uint6) : Byte := encTable.getD i.toNat 0

/-- `DEC_TABLE[b]` (R12). The 256 entries answer every byte. -/
def decAt (b : Byte) : Byte := decTable.getD b.toNat 255

end Sys2Proof.Machine
end

