-- ==== Sys2Proof/Machine/Operands.lean ====
section
/-! DEFINITION. The two-symbol container: how a 12-bit word and a pair of symbols stand for each other
(spec/30_encoding.md R52; spec/20_memory.md R29; spec/41_uint12.md R66, R67). -/

namespace Sys2Proof.Machine

/-- The first symbol of a 12-bit word: bits 11 to 6 (R52). -/
def firstSymbol (w : Uint12) : Byte := encAt (w.extractLsb' 6 6)

/-- The second symbol of a 12-bit word: bits 5 to 0 (R52). -/
def secondSymbol (w : Uint12) : Byte := encAt (w.extractLsb' 0 6)

/-- The two symbols as they stand in a response: `data[15:8]`, `data[7:0]` (R45). -/
def symbolPair (w : Uint12) : BitVec 16 := firstSymbol w ++ secondSymbol w

/-- The 12-bit word of two bytes, `(d0 << 6) | d1`; none when either is INVALID (R67). -/
def pairValue (b0 b1 : Byte) : Option Uint12 :=
  if decAt b0 = 255 ∨ decAt b1 = 255 then none
  else some ((decAt b0).extractLsb' 0 6 ++ (decAt b1).extractLsb' 0 6)

end Sys2Proof.Machine
end

