-- ==== Sys2Proof/Machine/Base64.lean ====
section
/-! DEFINITION. The operations of base64_alphabet_codec (spec/40_base64.md). -/

namespace Sys2Proof.Machine

/-- `B64_ENC v` (R62): the symbol of a 6-bit value. -/
def execB64Enc (v : Uint6) (s : State) : Host.Outcome State Fault Refusal :=
  .next (s.respond .ok ((encAt v).setWidth 64))

/-- `B64_DEC b` (R63): the value of a byte, or 255 reported as INVALID_SYMBOL. -/
def execB64Dec (b : Byte) (s : State) : Host.Outcome State Fault Refusal :=
  .next (s.respond (statusOfValue (decAt b)) ((decAt b).setWidth 64))

end Sys2Proof.Machine
end

