-- ==== Sys2Proof/Machine/Binary64.lean ====
section
/-! DEFINITION. binary64 words (spec/00_scope.md R10, R11): their fields, their classes and values, and
the word of an exactly representable number. The layout is the spec's own general knowledge
(notes/assumptions/7.md). Reals are exact: a finite value is a sign, an integer significand and an
integer exponent of two (notes/assumptions/8.md). -/

namespace Sys2Proof.Machine

/-- `x[63]`, the sign (R11). -/
def signBit (x : Word64) : Bool := x.getLsbD 63

/-- `x[62:52]`, the biased exponent `B` (R11). -/
def biasedExponent (x : Word64) : BitVec 11 := x.extractLsb' 52 11

/-- `x[51:0]`, the trailing significand `M` (R11). -/
def trailing (x : Word64) : BitVec 52 := x.extractLsb' 0 52

/-- The classes of R11. `finite neg sig exp` is the nonzero value `(−1)^neg × sig × 2^exp`. -/
inductive F64Class where
  | nan
  | infinite (neg : Bool)
  | zero (neg : Bool)
  | finite (neg : Bool) (sig : Nat) (exp : Int)
  deriving DecidableEq, Repr

/-- The class and value a word encodes (R11): a normal word's `1 + M × 2^−52` is written as the
integer `2^52 + M` at the exponent `B − 1075`. -/
def classify (x : Word64) : F64Class :=
  let B := (biasedExponent x).toNat
  let M := (trailing x).toNat
  if B = 0x7FF then
    if M = 0 then .infinite (signBit x) else .nan
  else if B = 0 then
    if M = 0 then .zero (signBit x) else .finite (signBit x) M (-1074)
  else .finite (signBit x) (2 ^ 52 + M) ((B : Int) - 1075)

/-- `floor(log2 (sig × 2^exp))` for `sig > 0`, exact (R10, R74). -/
def floorLog2 (sig : Nat) (exp : Int) : Int := (sig.log2 : Int) + exp

/-- `trunc(sig × 2^exp)`, exact (R10, R76). -/
def truncScaled (sig : Nat) (exp : Int) : Nat :=
  if 0 ≤ exp then sig * 2 ^ exp.toNat else sig / 2 ^ (-exp).toNat

/-- `f64((−1)^neg × sig × 2^exp)` (R10), for a value that is a normal binary64 number with a
significand of at most 53 bits, as every Float12 value is (R88). -/
def f64OfExact (neg : Bool) (sig : Nat) (exp : Int) : Word64 :=
  let biased := (floorLog2 sig exp + 1023).toNat
  let fraction := (sig - 2 ^ sig.log2) * 2 ^ (52 - sig.log2)
  BitVec.ofBool neg ++ BitVec.ofNat 11 biased ++ BitVec.ofNat 52 fraction

/-- The real `|val|` of a finite class, as an exact rational (R10): 0 for the zeros. NaN and the
infinities have none. -/
def F64Class.magnitude : F64Class → Option ℚ
  | .nan => none
  | .infinite _ => none
  | .zero _ => some 0
  | .finite _ sig exp => some ((sig : ℚ) * 2 ^ exp)

/-- The real `val` of a finite class, as an exact rational (R10). -/
def F64Class.value : F64Class → Option ℚ
  | .nan => none
  | .infinite _ => none
  | .zero _ => some 0
  | .finite neg sig exp => some ((if neg then -1 else 1) * ((sig : ℚ) * 2 ^ exp))

end Sys2Proof.Machine
end

