-- ==== Sys2Proof/Machine/Float12.lean ====
section
/-! DEFINITION. The Float12 format (spec/10_state.md R19; spec/30_encoding.md R53 to R55): its layout
constants, the encoder's word (spec/42_float12_encoder.md R70 to R80) and the decoder's value
(spec/43_float12_decoder.md R86). -/

namespace Sys2Proof.Machine

/-! ## Layout (R9, R19) -/

/-- `mask(n)`, the value with the low `n` bits set (R9). -/
def mask (n : Nat) : Nat := 2 ^ n - 1

/-- `mask(n, s)` (R9). -/
def maskAt (n s : Nat) : Nat := mask n <<< s

/-- The fraction's width (R19). -/
def fractionWidth : Nat := 5

/-- The exponent field's width (R19). -/
def exponentWidth : Nat := 6

/-- The sign's width (R19). -/
def signWidth : Nat := 1

/-- The implicit bit's width (R19). -/
def implicitWidth : Nat := 1

/-- `exponent_offset`, the bias (R19, R54). -/
def exponentOffset : Nat := 32

/-- The implicit leading 1 of the significand, `mask(1, 5)` = 0x20 (R19, R55). -/
def implicitBit : Nat := maskAt implicitWidth fractionWidth

/-- The least signed exponent (R19, R54). -/
def minExponent : Int := -(exponentOffset : Int)

/-- The greatest signed exponent (R19, R54). -/
def maxExponent : Int := (mask exponentWidth : Int) - (exponentOffset : Int)

/-! ## The fields of a word (R53) -/

/-- `s = w[11]` (R13, R53). -/
def f12Sign (w : Uint12) : Bool := w.getLsbD 11

/-- `E' = w[10:5]`, the stored exponent (R13, R53). -/
def f12Stored (w : Uint12) : BitVec 6 := w.extractLsb' 5 6

/-- `f = w[4:0]`, the fraction (R13, R53). -/
def f12Fraction (w : Uint12) : BitVec 5 := w.extractLsb' 0 5

/-- `{s[0], Ep[5:0], f[4:0]}` (R53, R80). -/
def f12Pack (s : Bool) (stored : BitVec 6) (fraction : BitVec 5) : Uint12 :=
  BitVec.ofBool s ++ stored ++ fraction

/-! ## The encoder's word (R70) -/

/-- The word of a nonzero finite value: the exact exponent (R74), the two clamps of step 4 (R77,
R78), and otherwise the truncated significand with its implicit bit masked out (R76, R79, R80). -/
def f12WordOfFinite (neg : Bool) (sig : Nat) (exp : Int) : Uint12 :=
  let E := floorLog2 sig exp
  if E < minExponent then f12Pack neg 0 0
  else if maxExponent < E then
    f12Pack neg (BitVec.ofNat 6 (mask exponentWidth)) (BitVec.ofNat 5 (mask fractionWidth))
  else
    let m := truncScaled sig (exp + ((fractionWidth : Int) - E))
    f12Pack neg (BitVec.ofNat 6 (E + exponentOffset).toNat) (BitVec.ofNat 5 (m &&& mask fractionWidth))

/-- The word of each class of value (R70): NaN and both zeros give 0x000 (R71, R72), and an infinity
saturates with its sign (R73, R75, R78). -/
def f12WordOfClass : F64Class → Uint12
  | .nan => f12Pack false 0 0
  | .zero _ => f12Pack false 0 0
  | .infinite neg =>
    f12Pack neg (BitVec.ofNat 6 (mask exponentWidth)) (BitVec.ofNat 5 (mask fractionWidth))
  | .finite neg sig exp => f12WordOfFinite neg sig exp

/-- The Float12 word that `F12_ENC x` packs (R70). -/
def f12Word (x : Word64) : Uint12 := f12WordOfClass (classify x)

/-! ## The decoder's value (R86) -/

/-- The significand with its implicit bit, `m = f | 0x20` (R55). -/
def f12Significand (w : Uint12) : Nat := (f12Fraction w).toNat ||| implicitBit

/-- The exponent of `m` in `m × 2^(e − 5)`, with `e = E' − 32` (R54, R86). -/
def f12Scale (w : Uint12) : Int :=
  ((f12Stored w).toNat : Int) - (exponentOffset : Int) - (fractionWidth : Int)

/-- `F12VAL(w)` (R86): +0.0 for the zero patterns (R87), else the exact word of `±m × 2^(e − 5)`. -/
def f12Value (w : Uint12) : Word64 :=
  if f12Stored w = 0 ∧ f12Fraction w = 0 then 0
  else f64OfExact (f12Sign w) (f12Significand w) (f12Scale w)

end Sys2Proof.Machine
end

