-- ==== Sys2Proof/Machine/Float12Dec.lean ====
section
/-! DEFINITION. The operations of float12_decoder (spec/43_float12_decoder.md). -/

namespace Sys2Proof.Machine

/-- `F12_DEC b0, b1` (R92): the value of two symbols, or INVALID_SYMBOL with `draw_64()`. -/
def execF12Dec (b0 b1 : Byte) (s : State) : Host.Outcome State Fault Refusal :=
  match pairValue b0 b1 with
  | some w => .next (s.respond .ok (f12Value w))
  | none => .next (s.respondDraw 64)

/-- `F12_DEC_RAW w` (R91): the value of a 12-bit word. -/
def execF12DecRaw (w : Uint12) (s : State) : Host.Outcome State Fault Refusal :=
  .next (s.respond .ok (f12Value w))

end Sys2Proof.Machine
end

