-- ==== Sys2Proof/Machine/Float12Enc.lean ====
section
/-! DEFINITION. The operation of float12_encoder (spec/42_float12_encoder.md). -/

namespace Sys2Proof.Machine

/-- `F12_ENC x` (R70): the Float12 word in `data[27:16]` and its two symbols in `data[15:0]`. -/
def execF12Enc (x : Word64) (s : State) : Host.Outcome State Fault Refusal :=
  .next (s.respond .ok ((f12Word x ++ symbolPair (f12Word x)).setWidth 64))

end Sys2Proof.Machine
end

