-- ==== Sys2Proof/Machine/Reserved.lean ====
section
/-! DEFINITION. The reserved operation (spec/30_encoding.md R57; spec/60_exceptions.md R112). -/

namespace Sys2Proof.Machine

/-- op 7 (R57): the model's fault outcome ILLEGAL_OP (R12, R112). No operand is examined (R113). The
fault carries the marked state. -/
def execReserved (s : State) : Host.Outcome State Fault Refusal := .fault (.illegalOp s.illegalOp)

end Sys2Proof.Machine
end

