-- ==== Sys2Proof/Machine/Uint12.lean ====
section
/-! DEFINITION. The operations of uint12_codec (spec/41_uint12.md). -/

namespace Sys2Proof.Machine

/-- `U12_ENC v` (R66): the two symbols of a 12-bit value. -/
def execU12Enc (v : Uint12) (s : State) : Host.Outcome State Fault Refusal :=
  .next (s.respond .ok ((symbolPair v).setWidth 64))

/-- `U12_DEC b0, b1` (R67): the value of two symbols, or INVALID_SYMBOL with `draw_12()`. -/
def execU12Dec (b0 b1 : Byte) (s : State) : Host.Outcome State Fault Refusal :=
  match pairValue b0 b1 with
  | some v => .next (s.respond .ok (v.setWidth 64))
  | none => .next (s.respondDraw 12)

end Sys2Proof.Machine
end

