-- ==== Sys2Proof/Machine/Dispatch.lean ====
section
/-! DEFINITION. The meaning of each operation: one arm for each row of spec/opcode_table.json. -/

namespace Sys2Proof.Machine

def exec (i : Instr) (s : State) : Host.Outcome State Fault Refusal :=
  match i with
  | .b64Enc v => Sys2Proof.Machine.execB64Enc v s
  | .b64Dec b => Sys2Proof.Machine.execB64Dec b s
  | .u12Enc v => Sys2Proof.Machine.execU12Enc v s
  | .u12Dec b0 b1 => Sys2Proof.Machine.execU12Dec b0 b1 s
  | .f12Enc x => Sys2Proof.Machine.execF12Enc x s
  | .f12Dec b0 b1 => Sys2Proof.Machine.execF12Dec b0 b1 s
  | .f12DecRaw w => Sys2Proof.Machine.execF12DecRaw w s
  | .reserved => Sys2Proof.Machine.execReserved s

end Sys2Proof.Machine
end

