-- ==== Sys2Proof/Machine/Issue.lean ====
section
/-! DEFINITION. A request and its response, one atomic transition (spec/10_state.md R14). -/

namespace Sys2Proof.Machine

/-- The block serves the request that stands on its request bus (R24). -/
def serve (s : State) : Host.Outcome State Fault Refusal := exec (decodeRequest s.req) s

/-- The host presents a request and the block serves it (R14). -/
def issue (w : Request) (s : State) : Host.Outcome State Fault Refusal := serve (s.present w)

end Sys2Proof.Machine
end

