-- ==== Sys2Proof/Machine/Stream.lean ====
section
/-! DEFINITION. The host's stream driver (spec/48_host_stream_driver.md): the start of a call, its steps,
its yields and its end. The driver's requests go over the block's buses like any other
(notes/assumptions/13.md). -/

namespace Sys2Proof.Machine

/-- CR (R99). -/
def byteCR : Byte := 0x0D

/-- LF (R99). -/
def byteLF : Byte := 0x0A

/-! ## Start (R97) -/

/-- The fields a call starts with (R97). -/
def Call.start (dir : Dir) (input total output skipLineCount suspendCount : Nat) : Call where
  dir := dir
  input := input
  pos := 0
  processed := 0
  total := total
  sinceYield := 0
  phase := if dir = .decode ∧ 0 < skipLineCount then .skip else .data
  lines := 0
  pending := none
  output := output
  outCount := 0
  skipLineCount := skipLineCount
  suspendCount := suspendCount
  returned := []

/-- The DECODE output buffer is sized at `floor(remaining / 2)` elements, of any value (R100). -/
def State.sizeOutput (output remaining : Nat) (s : State) : State :=
  (s.withNums (s.numBufs.set output (freshNums s.draws (remaining / 2)))).drew (remaining / 2)

/-- Begin a DECODE call on a byte buffer (R97): its own output buffer is the next number buffer,
sized at once where no line is skipped (R100). -/
def startDecode (input skipLineCount suspendCount : Nat) (s : State) :
    Host.Outcome State Fault Refusal :=
  if suspendCount = 0 then .refused .suspendCountZero
  else if s.bytesFilling input then .refused .heldByCall
  else
    orRefuse .outsideBuffer (s.byteBufs[input]?) fun bytes =>
      let output := s.numBufs.length
      let c := Call.start .decode input bytes.length output skipLineCount suspendCount
      let s1 := (s.withNums (s.numBufs ++ [[]])).withCalls (s.calls ++ [c])
      if skipLineCount = 0 then .next (s1.sizeOutput output bytes.length) else .next s1

/-- Begin an ENCODE call on a number buffer (R97): its own output buffer is the next byte buffer, of
exactly two bytes for each number (R103). -/
def startEncode (input suspendCount : Nat) (s : State) : Host.Outcome State Fault Refusal :=
  if suspendCount = 0 then .refused .suspendCountZero
  else if s.numsFilling input then .refused .heldByCall
  else
    orRefuse .outsideBuffer (s.numBufs[input]?) fun nums =>
      let c := Call.start .encode input nums.length s.byteBufs.length 0 suspendCount
      let bytes := freshBytes s.draws (2 * nums.length)
      .next (((s.withBytes (s.byteBufs ++ [bytes])).withCalls (s.calls ++ [c])).drew
        (2 * nums.length))

/-! ## The steps of a call (R99, R101, R103) -/

/-- What a driver step answers: the call and the state after it. -/
abbrev DriverOutcome := Host.Outcome (Call × State) Fault Refusal

/-- `pos += n; processed += n; sinceYield += n` (R99, R101, R103). -/
def Call.advance (n : Nat) (c : Call) : Call :=
  { c with pos := c.pos + n, processed := c.processed + n, sinceYield := c.sinceYield + n }

/-- The byte at `pos` is a CR and the next input byte is an LF: one line break of two bytes (R99). -/
def Call.atCrLf (c : Call) (s : State) : Bool :=
  s.byteAt c.input c.pos == some byteCR && decide (c.pos + 1 < c.total) &&
    s.byteAt c.input (c.pos + 1) == some byteLF

/-- The SKIP phase after a piece of `n` bytes that ended in a line break or did not (R99), entering
the DATA phase at the last break (R100). -/
def skipPiece (n : Nat) (isBreak : Bool) (c : Call) (s : State) : Call × State :=
  let c1 := c.advance n
  let c2 := { c1 with lines := if isBreak then c.lines + 1 else c.lines }
  if c2.lines = c2.skipLineCount then
    ({ c2 with phase := .data }, s.sizeOutput c2.output (c2.total - c2.pos))
  else (c2, s)

/-- One step of the SKIP phase (R99). -/
def skipStep (c : Call) (s : State) : DriverOutcome :=
  orRefuse .outsideBuffer (s.byteAt c.input c.pos) fun b =>
    .next (skipPiece (if c.atCrLf s then 2 else 1) (b == byteCR || b == byteLF) c s)

/-- A complete unit is decoded and its value appended to the output (R101). -/
def decodeUnit (first second : Byte) (c : Call) (s : State) : DriverOutcome :=
  andThen (issue (encode (.f12Dec first second)) s) fun s1 =>
    orRefuse .outsideBuffer (s1.putNum c.output c.outCount (dataOf s1.rsp)) fun s2 =>
      .next ({ c with pending := none, outCount := c.outCount + 1 }, s2)

/-- One step of the DATA phase (R101): the byte's validity is asked of the block, an invalid byte is
skipped but counted, and two valid bytes make a unit. -/
def dataStep (c : Call) (s : State) : DriverOutcome :=
  orRefuse .outsideBuffer (s.byteAt c.input c.pos) fun b =>
    andThen (issue (encode (.b64Dec b)) s) fun s1 =>
      if statusOf s1.rsp = Status.invalidSymbol.code then .next (c.advance 1, s1)
      else
        match c.pending with
        | none => .next ({ c.advance 1 with pending := some b }, s1)
        | some first => decodeUnit first b (c.advance 1) s1

/-- One step of an ENCODE call (R103): one number becomes the two bytes of its slot. -/
def encodeStep (c : Call) (s : State) : DriverOutcome :=
  orRefuse .outsideBuffer (s.numAt c.input c.pos) fun x =>
    andThen (issue (encode (.f12Enc x)) s) fun s1 =>
      orRefuse .outsideBuffer (s1.putSlot c.output (2 * c.pos) (dataOf s1.rsp)) fun s2 =>
        .next (c.advance 1, s2)

/-- One step of a call, by its direction and phase. -/
def driverStep (c : Call) (s : State) : DriverOutcome :=
  match c.dir with
  | .encode => encodeStep c s
  | .decode =>
    match c.phase with
    | .skip => skipStep c s
    | .data => dataStep c s

/-! ## Yields and the end (R104, R105) -/

/-- The driver suspends here: no unit is half done, and enough was processed since the last yield
(R104). -/
def Call.suspends (c : Call) : Bool := c.pending == none && decide (c.suspendCount ≤ c.sinceYield)

/-- `return Yielded(processed, total)` (R104). -/
def Call.yield (c : Call) : Call :=
  { c with sinceYield := 0, returned := .yielded c.processed c.total :: c.returned }

/-- The end of a call's own fields: a pending symbol is dropped (R102) and Done is returned (R105). -/
def Call.finish (c : Call) : Call := { c with pending := none, returned := .done :: c.returned }

/-- The output buffer as Done returns it: a DECODE buffer is trimmed to the elements produced
(R105), an ENCODE buffer is never trimmed (R103). -/
def State.trimOutput (c : Call) (s : State) : State :=
  match c.dir with
  | .decode => s.withNums (s.numBufs.modify c.output (List.take c.outCount))
  | .encode => s

/-- Call number `k` ends with Done, and its `resume()` returns (R105). -/
def endCall (k : Nat) (c : Call) (rest : List HostStep) (s : State) : State :=
  ((s.trimOutput c).withCalls (s.calls.set k c.finish)).withScript rest

/-- After a driver step: the `resume()` returns at a yield (R104) or at the end of the input (R105),
and otherwise goes on, staying the host's next step. -/
def afterStep (k : Nat) (c : Call) (rest : List HostStep) (s : State) : State :=
  if c.suspends then (s.withCalls (s.calls.set k c.yield)).withScript rest
  else if c.pos < c.total then s.withCalls (s.calls.set k c)
  else endCall k c rest s

/-- One driver step of `resume()` on call number `k`, the host's steps after it being `rest` (R104 to
R106). A call with no input left ends at once (R105); a call that has returned Done is not resumed. -/
def resumeCall (k : Nat) (rest : List HostStep) (s : State) : Host.Outcome State Fault Refusal :=
  orRefuse .noSuchCall (s.calls[k]?) fun c =>
    if c.finished then .refused .callFinished
    else if c.pos < c.total then
      andThen (driverStep c s) fun r => .next (afterStep k r.1 rest r.2)
    else .next (endCall k c rest s)

end Sys2Proof.Machine
end

