-- ==== Sys2Proof/Machine/HostRun.lean ====
section
/-! DEFINITION. The meaning of each host step (spec/20_memory.md R26 to R33; spec/10_state.md R16). -/

namespace Sys2Proof.Machine

/-- The request that a pair of bytes makes (R33, rows U12_DEC and F12_DEC). -/
def PairOp.instr (op : PairOp) (b0 b1 : Byte) : Instr :=
  match op with
  | .u12Dec => .u12Dec b0 b1
  | .f12Dec => .f12Dec b0 b1

/-- The host writes a call's progress accumulator: not while the call is unfinished (R109). -/
def writeProgress (k processed total : Nat) (s : State) : Host.Outcome State Fault Refusal :=
  orRefuse .noSuchCall (s.calls[k]?) fun c =>
    if c.finished then
      .next (s.withCalls (s.calls.set k { c with processed := processed, total := total }))
    else .refused .heldByCall

/-- One host step, `rest` being what the host has left to do after it. Every step but an unreturned
`resume()` is done once. -/
def hostStep (h : HostStep) (rest : List HostStep) (s : State) :
    Host.Outcome State Fault Refusal :=
  let s' := s.withScript rest
  match h with
  | .request w => issue w s'
  | .newBytes bytes => .next (s'.withBytes (s.byteBufs ++ [bytes]))
  | .newNums nums => .next (s'.withNums (s.numBufs ++ [nums]))
  | .newText strings => .next (s'.withBytes (s.byteBufs ++ [joinText strings]))
  | .memWrite buf addr v => s'.hostWriteBytes buf (s'.putByte buf addr v)
  | .numWrite buf index v => s'.hostWriteNums buf (s'.putNum buf index v)
  | .sendByte buf addr =>
    orRefuse .outsideBuffer (s'.hostByte buf addr) fun r => issue (encode (.b64Dec r.1)) r.2
  | .sendPair op buf addr0 addr1 =>
    orRefuse .outsideBuffer (s'.hostByte buf addr0) fun r0 =>
      orRefuse .outsideBuffer (r0.2.hostByte buf addr1) fun r1 =>
        issue (encode (op.instr r0.1 r1.1)) r1.2
  | .sendNum buf index =>
    orRefuse .outsideBuffer (s'.hostNum buf index) fun r => issue (encode (.f12Enc r.1)) r.2
  | .takeByte buf addr =>
    s'.hostWriteBytes buf (s'.putByte buf addr ((dataOf s.rsp).extractLsb' 0 8))
  | .takePair buf offset => s'.hostWriteBytes buf (s'.putSlot buf offset (dataOf s.rsp))
  | .takeNum buf index => s'.hostWriteNums buf (s'.putNum buf index (dataOf s.rsp))
  | .startDecode input skipLineCount suspendCount =>
    startDecode input skipLineCount suspendCount s'
  | .startEncode input suspendCount => startEncode input suspendCount s'
  | .writeProgress k processed total => writeProgress k processed total s'
  | .resume k => resumeCall k rest s

/-- One step of a machine that is not marked faulted: the host does the next thing it has to do. -/
def hostNext (s : State) : Host.Outcome State Fault Refusal :=
  match s.script with
  | [] => .refused .noHostStep
  | h :: rest => hostStep h rest s

end Sys2Proof.Machine
end

