-- ==== Sys2Proof/Machine/Step.lean ====
section
/-! DEFINITION. One step of the machine, and how a request is placed as its next one. -/

namespace Sys2Proof.Machine

/-- One step: a marked state stays faulted (R112); otherwise the host does its next step, and the
block serves the request that it makes, if it makes one (R14). -/
def step (s : State) : Host.Outcome State Fault Refusal :=
  if s.faulted then .fault (.illegalOp s) else hostNext s

/-- The request whose `nbits` bits are `w` is what the host issues next (notes/assumptions/9.md). -/
def State.withFetchWord (s : State) (nbits w : Nat) : State :=
  s.withScript (.request (BitVec.ofNat 67 (w % 2 ^ nbits)) :: s.script)

end Sys2Proof.Machine
end

