-- ==== Sys2Proof/Safety.lean ====
section
/-! DEFINITION. The terms claims use: runs, the invariant of the machine, and when two states differ
only in when streaming calls suspend. -/

namespace Sys2Proof.Machine

/-- `n` steps; a fault or a refusal stops the run. -/
def runSteps : Nat → State → Host.Outcome State Fault Refusal
  | 0, s => .next s
  | n + 1, s => andThen (step s) (runSteps n)

/-- How many low operand bits an operation reads (spec/30_encoding.md R42); the others are ignored
(R43). -/
def operandBits (op : BitVec 3) : Nat :=
  match op.toNat with
  | 0 => 6
  | 1 => 8
  | 2 => 12
  | 3 => 16
  | 4 => 64
  | 5 => 16
  | 6 => 12
  | _ => 0

/-- The word is one of the two zero patterns 0x000 and 0x800 (spec/30_encoding.md R58). -/
def isZeroPattern (w : Uint12) : Prop := f12Stored w = 0 ∧ f12Fraction w = 0

/-! ## The invariant of streaming calls (spec/48_host_stream_driver.md) -/

/-- 1 while the first symbol of a unit is held, else 0 (R96). -/
def Call.pendingCount (c : Call) : Nat := if c.pending = none then 0 else 1

/-- The yields returned so far, newest first: each at most `upTo`, of this `total`, and at least
`gap` elements after the one before it, the first at least `gap` after the start (R108). -/
def yieldsSpaced (gap total : Nat) : Nat → List Returned → Prop
  | _, [] => True
  | _, .done :: _ => False
  | upTo, .yielded p t :: older =>
    p ≤ upTo ∧ t = total ∧ gap ≤ p ∧ yieldsSpaced gap total (p - gap) older

/-- `processed` at the last yield, 0 before the first. -/
def lastYield : List Returned → Nat
  | .yielded p _ :: _ => p
  | _ => 0

/-- What holds of an unfinished DECODE call's buffers: the input is there, whole (R97); in the SKIP
phase nothing is decoded and a break is still to come (R99); in the DATA phase the output has room
for every unit still to come (R100), and a held symbol is a valid one (R101). -/
def Call.DecodeSound (s : State) (c : Call) : Prop :=
  (∃ bytes, s.byteBufs[c.input]? = some bytes ∧ bytes.length = c.total) ∧
  ∃ out, s.numBufs[c.output]? = some out ∧
    match c.phase with
    | .skip => c.pending = none ∧ c.outCount = 0 ∧ c.lines < c.skipLineCount
    | .data =>
      2 * c.outCount + c.pendingCount + (c.total - c.pos) ≤ 2 * out.length + 1 ∧
      ∀ b, c.pending = some b → decAt b ≠ 255

/-- What holds of an unfinished ENCODE call's buffers: the input is there, whole (R97), the output
has exactly two bytes for each number (R103), and no symbol is held. -/
def Call.EncodeSound (s : State) (c : Call) : Prop :=
  (∃ nums, s.numBufs[c.input]? = some nums ∧ nums.length = c.total) ∧
  (∃ out, s.byteBufs[c.output]? = some out ∧ out.length = 2 * c.total) ∧
  c.pending = none

/-- What holds of an unfinished call (R96 to R108): the progress accumulator counts the input
elements consumed, and the yields are spaced as R108 says. -/
structure Call.Sound (s : State) (c : Call) : Prop where
  processed_eq : c.processed = c.pos
  pos_le : c.pos ≤ c.total
  suspend_pos : 1 ≤ c.suspendCount
  since : lastYield c.returned + c.sinceYield = c.processed
  spaced : yieldsSpaced c.suspendCount c.total c.processed c.returned
  buffers : match c.dir with
    | .decode => c.DecodeSound s
    | .encode => c.EncodeSound s

/-- The output of the one call, while it is unfinished, is no input and no output of the other: each
call owns its own output buffer exclusively (R96). -/
def Call.Separate (c d : Call) : Prop :=
  ∀ buf, (c.fillsBytes buf = true → d.fillsBytes buf = false ∧ d.readsBytes buf = false) ∧
    (c.fillsNums buf = true → d.fillsNums buf = false ∧ d.readsNums buf = false)

/-- The second state's buffers are the first's, but for the call's own output (R96). -/
def Call.OnlyOutputChanges (c : Call) (s t : State) : Prop :=
  (∀ buf, buf ≠ c.output ∨ c.dir = .decode → t.byteBufs[buf]? = s.byteBufs[buf]?) ∧
  ∀ buf, buf ≠ c.output ∨ c.dir = .encode → t.numBufs[buf]? = s.numBufs[buf]?

/-- The invariant of the machine: it is not marked faulted, every unfinished call is sound, no two
share an output, and Done was returned at most once to each, last (R105). -/
structure State.Inv (s : State) : Prop where
  unmarked : s.faulted = false
  sound : ∀ c ∈ s.calls, c.finished = false → c.Sound s
  separate : s.calls.Pairwise fun c d => c.Separate d ∧ d.Separate c
  once : ∀ c ∈ s.calls, Returned.done ∉ c.returned.tail

/-! ## Chunk size (spec/48_host_stream_driver.md R107) -/

/-- The call without the fields that say when it suspends. -/
def Call.withoutChunks (c : Call) : Call :=
  { c with sinceYield := 0, suspendCount := 0, returned := [] }

/-- The two calls differ at most in their suspend counts and in what was yielded so far. -/
def Call.SameButChunks (c d : Call) : Prop :=
  c.withoutChunks = d.withoutChunks ∧ c.finished = d.finished

/-- The two states differ at most in the host's steps to come and in the suspend counts and yields
of their streaming calls. -/
def State.SameButChunks (s t : State) : Prop :=
  t = { s with script := t.script, calls := t.calls } ∧
  List.Forall₂ Call.SameButChunks s.calls t.calls

end Sys2Proof.Machine
end

