-- ==== Sys2Proof/Certificates/Slice0/Obligations.lean ====
section
/-! DEFINITION. The statements for the provers, from the numbered rules of the spec. -/

open Sys2Proof Sys2Proof.Machine

/-! ## Tables (R47 to R51) -/

/-- R47, R48: the encode table is the alphabet in its order, each symbol by its ASCII code. -/
def Obligations.EncodeTableIsTheAlphabet : Prop :=
  ∀ i : Uint6, (encAt i).toNat =
    if i.toNat < 26 then 0x41 + i.toNat
    else if i.toNat < 52 then 0x61 + (i.toNat - 26)
    else if i.toNat < 62 then 0x30 + (i.toNat - 52)
    else if i.toNat = 62 then 0x2B
    else 0x2F

/-- R49: the decode table by its ranges, with the two URL-safe spellings of 62 and 63. -/
def Obligations.DecodeTableByRanges : Prop :=
  ∀ b : Byte, (decAt b).toNat =
    if b.toNat = 0x2B ∨ b.toNat = 0x2D then 62
    else if b.toNat = 0x2F ∨ b.toNat = 0x5F then 63
    else if 0x30 ≤ b.toNat ∧ b.toNat ≤ 0x39 then 52 + (b.toNat - 0x30)
    else if 0x41 ≤ b.toNat ∧ b.toNat ≤ 0x5A then b.toNat - 0x41
    else if 0x61 ≤ b.toNat ∧ b.toNat ≤ 0x7A then 26 + (b.toNat - 0x61)
    else 255

/-- R50: 190 bytes are INVALID, CR, LF, space, `=` and every byte from 0x80 on among them, and a
value is never mistaken for INVALID. -/
def Obligations.InvalidBytesAre190 : Prop :=
  ((List.range 256).filter fun n => decAt (BitVec.ofNat 8 n) = 255).length = 190 ∧
  decAt 0x0D = 255 ∧ decAt 0x0A = 255 ∧ decAt 0x20 = 255 ∧ decAt 0x3D = 255 ∧
  (∀ b : Byte, 0x80 ≤ b.toNat → decAt b = 255) ∧
  ∀ b : Byte, decAt b = 255 ∨ (decAt b).toNat ≤ 63

/-- R51: the encode table never produces `-` or `_`, the decode table inverts it, and it is no
bijection over bytes. -/
def Obligations.DecodeTableInvertsEncodeTable : Prop :=
  (∀ v : Uint6, encAt v ≠ 0x2D ∧ encAt v ≠ 0x5F ∧ decAt (encAt v) = v.setWidth 8) ∧
  decAt 0x2D = 62 ∧ decAt 0x2B = 62 ∧ decAt 0x5F = 63 ∧ decAt 0x2F = 63

/-! ## base64_alphabet_codec (R62 to R65) -/

/-- R62: B64_ENC, for every operand field. It changes the response bus and nothing else. -/
def Obligations.B64EncWritesSymbol : Prop :=
  ∀ (opnd : Word64) (s : State),
    decodeRequest (mkRequest 0 opnd) = .b64Enc (opnd.extractLsb' 0 6) ∧
    ∃ t, exec (.b64Enc (opnd.extractLsb' 0 6)) s = .next t ∧
      t = { s with rsp := t.rsp } ∧
      statusOf t.rsp = 0b00 ∧
      (dataOf t.rsp).extractLsb' 8 56 = 0 ∧
      (dataOf t.rsp).extractLsb' 0 8 = encAt (opnd.extractLsb' 0 6)

/-- R63: B64_DEC, for every operand field. It changes the response bus and nothing else. -/
def Obligations.B64DecWritesValueOrInvalid : Prop :=
  ∀ (opnd : Word64) (s : State),
    decodeRequest (mkRequest 1 opnd) = .b64Dec (opnd.extractLsb' 0 8) ∧
    ∃ t, exec (.b64Dec (opnd.extractLsb' 0 8)) s = .next t ∧
      t = { s with rsp := t.rsp } ∧
      statusOf t.rsp = (if decAt (opnd.extractLsb' 0 8) = 255 then 0b01 else 0b00) ∧
      (dataOf t.rsp).extractLsb' 8 56 = 0 ∧
      (dataOf t.rsp).extractLsb' 0 8 = decAt (opnd.extractLsb' 0 8)

/-- R64: B64_DEC of the byte that B64_ENC returned gives the value back with status OK. -/
def Obligations.B64RoundTrip : Prop :=
  ∀ (v : Uint6) (s : State), ∃ t u,
    exec (.b64Enc v) s = .next t ∧
    exec (.b64Dec ((dataOf t.rsp).extractLsb' 0 8)) t = .next u ∧
    statusOf u.rsp = 0b00 ∧ dataOf u.rsp = v.setWidth 64

/-- R65: `-` decodes as `+` does, and `_` as `/` does. -/
def Obligations.UrlSafeBytesDecodeAlike : Prop :=
  ∀ s : State,
    exec (.b64Dec 0x2D) s = exec (.b64Dec 0x2B) s ∧ exec (.b64Dec 0x5F) s = exec (.b64Dec 0x2F) s

/-! ## uint12_codec (R66 to R69) -/

/-- R66: U12_ENC, for every operand field. It changes the response bus and nothing else. -/
def Obligations.U12EncWritesTwoSymbols : Prop :=
  ∀ (opnd : Word64) (s : State),
    decodeRequest (mkRequest 2 opnd) = .u12Enc (opnd.extractLsb' 0 12) ∧
    ∃ t, exec (.u12Enc (opnd.extractLsb' 0 12)) s = .next t ∧
      t = { s with rsp := t.rsp } ∧
      statusOf t.rsp = 0b00 ∧
      (dataOf t.rsp).extractLsb' 16 48 = 0 ∧
      (dataOf t.rsp).extractLsb' 8 8 = encAt (opnd.extractLsb' 6 6) ∧
      (dataOf t.rsp).extractLsb' 0 8 = encAt (opnd.extractLsb' 0 6)

/-- R67: U12_DEC, for every operand field: the value of two valid bytes, or a draw of 12 bits. It
changes the response bus, and the count of draws where it draws, and nothing else. -/
def Obligations.U12DecWritesValueOrDraw : Prop :=
  ∀ (opnd : Word64) (s : State),
    decodeRequest (mkRequest 3 opnd) = .u12Dec (opnd.extractLsb' 8 8) (opnd.extractLsb' 0 8) ∧
    ∃ t, exec (.u12Dec (opnd.extractLsb' 8 8) (opnd.extractLsb' 0 8)) s = .next t ∧
      if decAt (opnd.extractLsb' 8 8) = 255 ∨ decAt (opnd.extractLsb' 0 8) = 255 then
        t = { s with rsp := t.rsp, draws := s.draws + 1 } ∧
        statusOf t.rsp = 0b01 ∧
        (dataOf t.rsp).extractLsb' 12 52 = 0 ∧
        (dataOf t.rsp).extractLsb' 0 12 = Config.draw 12 s.draws
      else
        t = { s with rsp := t.rsp } ∧
        statusOf t.rsp = 0b00 ∧
        (dataOf t.rsp).toNat =
          (decAt (opnd.extractLsb' 8 8)).toNat * 2 ^ 6 + (decAt (opnd.extractLsb' 0 8)).toNat

/-- R68: U12_DEC of the symbols that U12_ENC returned gives the value back with status OK. -/
def Obligations.U12RoundTrip : Prop :=
  ∀ (v : Uint12) (s : State), ∃ t u,
    exec (.u12Enc v) s = .next t ∧
    exec (.u12Dec ((dataOf t.rsp).extractLsb' 8 8) ((dataOf t.rsp).extractLsb' 0 8)) t = .next u ∧
    statusOf u.rsp = 0b00 ∧ dataOf u.rsp = v.setWidth 64

/-- R69: a URL-safe byte in either operand of U12_DEC answers as its standard byte; 66 bytes are
valid, so valid pairs have 66 × 66 spellings. One state has one next draw, so that both spellings of an
invalid pair are compared at the same free value (log 3). -/
def Obligations.UrlSafePairsDecodeAlike : Prop :=
  (∀ (b : Byte) (s : State),
    exec (.u12Dec 0x2D b) s = exec (.u12Dec 0x2B b) s ∧
    exec (.u12Dec 0x5F b) s = exec (.u12Dec 0x2F b) s ∧
    exec (.u12Dec b 0x2D) s = exec (.u12Dec b 0x2B) s ∧
    exec (.u12Dec b 0x5F) s = exec (.u12Dec b 0x2F) s) ∧
  ((List.range 256).filter fun n => decAt (BitVec.ofNat 8 n) ≠ 255).length = 66

/-! ## float12_encoder (R70 to R85) -/

/-- R70, the response, for every operand: the word in data[27:16] and its two symbols, status OK. It
changes the response bus and nothing else (R85). -/
def Obligations.F12EncWritesWordAndSymbols : Prop :=
  ∀ (x : Word64) (s : State),
    decodeRequest (mkRequest 4 x) = .f12Enc x ∧
    ∃ t, exec (.f12Enc x) s = .next t ∧
      t = { s with rsp := t.rsp } ∧
      statusOf t.rsp = 0b00 ∧
      (dataOf t.rsp).extractLsb' 28 36 = 0 ∧
      (dataOf t.rsp).extractLsb' 16 12 = f12Word x ∧
      (dataOf t.rsp).extractLsb' 8 8 = encAt ((f12Word x).extractLsb' 6 6) ∧
      (dataOf t.rsp).extractLsb' 0 8 = encAt ((f12Word x).extractLsb' 0 6)

/-- R11: the classes of a binary64 word and the real it encodes. -/
def Obligations.Binary64ClassesAndValues : Prop :=
  ∀ x : Word64,
    let B := (biasedExponent x).toNat
    let M := (trailing x).toNat
    let sign : ℚ := if signBit x then -1 else 1
    if B = 0x7FF then
      (classify x = .nan ↔ M ≠ 0) ∧ (classify x = .infinite (signBit x) ↔ M = 0)
    else if B = 0 then
      (classify x = .zero (signBit x) ↔ M = 0) ∧
      (classify x).value = some (sign * ((M : ℚ) * 2 ^ (-1074 : ℤ)))
    else
      (classify x).value = some (sign * ((1 + (M : ℚ) * 2 ^ (-52 : ℤ)) * 2 ^ ((B : ℤ) - 1023)))

/-- R70 to R80, the word, in exact reals: zeros and NaN give 0x000, infinities saturate, and for a
finite nonzero value the exponent is the exact floor of its logarithm, with the two clamps and the
truncated significand. -/
def Obligations.EncoderWordInExactReals : Prop :=
  ∀ x : Word64,
    match classify x with
    | .nan => f12Word x = 0x000
    | .zero _ => f12Word x = 0x000
    | .infinite neg => f12Word x = if neg then 0xFFF else 0x7FF
    | .finite neg sig exp =>
      f12Sign (f12Word x) = neg ∧
      ∃ E : ℤ, (2 : ℚ) ^ E ≤ (sig : ℚ) * 2 ^ exp ∧ (sig : ℚ) * 2 ^ exp < 2 ^ (E + 1) ∧
        if E < -32 then f12Stored (f12Word x) = 0 ∧ f12Fraction (f12Word x) = 0
        else if 31 < E then f12Stored (f12Word x) = 63 ∧ f12Fraction (f12Word x) = 31
        else
          ((f12Stored (f12Word x)).toNat : ℤ) = E + 32 ∧
          ((f12Fraction (f12Word x)).toNat : ℤ) = ⌊(sig : ℚ) * 2 ^ exp * 2 ^ (5 - E)⌋ - 32

/-- R84: the encoder on the fields of the binary64 word. -/
def Obligations.EncoderWordByFields : Prop :=
  ∀ x : Word64,
    let B := (biasedExponent x).toNat
    let M := trailing x
    let signOnly : Uint12 := if signBit x then 0x800 else 0x000
    f12Word x =
      if B = 0x7FF ∧ M ≠ 0 then 0x000
      else if B = 0 ∧ M = 0 then 0x000
      else if B = 0 then signOnly
      else if B = 0x7FF then signOnly ||| 0x7FF
      else if B ≤ 990 then signOnly
      else if B ≤ 1054 then
        signOnly ||| (BitVec.ofNat 12 (B - 991) <<< (5 : Nat)) ||| (M.extractLsb' 47 5).setWidth 12
      else signOnly ||| 0x7FF

/-- R81: the decoded value of an encoded finite number is never larger in magnitude, and it has the
number's sign or is 0. -/
def Obligations.EncoderRoundsTowardZero : Prop :=
  ∀ (x : Word64) (v : ℚ), (classify x).value = some v →
    ∃ u, (classify (f12Value (f12Word x))).value = some u ∧ |u| ≤ |v| ∧
      (u = 0 ∨ SignType.sign u = SignType.sign v)

/-- R59: the encoder produces every one of the 4096 words. -/
def Obligations.EncoderReachesEveryWord : Prop :=
  (∀ w : Uint12, w ≠ 0x000 → w ≠ 0x800 → f12Word (f12Value w) = w) ∧
  f12Word 0x0000000000000000 = 0x000 ∧ f12Word 0xBDF0000000000000 = 0x800

/-! ## float12_decoder (R86 to R95) -/

/-- R86, R88: the decoder's value: the word +0.0 for the zero patterns, and for every other word the
real ±m × 2^(e − 5), exactly. -/
def Obligations.DecoderValueInExactReals : Prop :=
  ∀ w : Uint12,
    if f12Stored w = 0 ∧ f12Fraction w = 0 then f12Value w = 0x0000000000000000
    else
      (classify (f12Value w)).value = some
        ((if f12Sign w then -1 else 1) *
          ((32 + ((f12Fraction w).toNat : ℚ)) * 2 ^ (((f12Stored w).toNat : ℤ) - 32 - 5)))

/-- R87: both zero patterns give +0.0, from the raw word and from the symbols. -/
def Obligations.ZeroPatternsDecodeToPlusZero : Prop :=
  ∀ (w : Uint12) (s : State), w = 0x000 ∨ w = 0x800 →
    f12Value w = 0x0000000000000000 ∧
    ∃ t u, exec (.f12DecRaw w) s = .next t ∧ dataOf t.rsp = 0 ∧ statusOf t.rsp = 0b00 ∧
      exec (.f12Dec (encAt (w.extractLsb' 6 6)) (encAt (w.extractLsb' 0 6))) s = .next u ∧
      dataOf u.rsp = 0 ∧ statusOf u.rsp = 0b00

/-- R89: the decoder on bits. -/
def Obligations.DecoderValueByBits : Prop :=
  ∀ w : Uint12, f12Value w =
    if f12Stored w = 0 ∧ f12Fraction w = 0 then 0x0000000000000000
    else
      ((BitVec.ofBool (f12Sign w)).setWidth 64 <<< (63 : Nat)) |||
        (BitVec.ofNat 64 ((f12Stored w).toNat + 991) <<< (52 : Nat)) |||
        ((f12Fraction w).setWidth 64 <<< (47 : Nat))

/-- R90: F12VAL never gives a NaN, an infinity, a subnormal or −0.0; the nonzero values run from
33 × 2^−37 to 63 × 2^26 in magnitude, and all are distinct. -/
def Obligations.DecodedValuesAreNormalAndDistinct : Prop :=
  (∀ w : Uint12, isZeroPattern w → f12Value w = 0) ∧
  (∀ w : Uint12, ¬ isZeroPattern w → ∃ neg sig exp,
    classify (f12Value w) = .finite neg sig exp ∧ (biasedExponent (f12Value w)).toNat ≠ 0 ∧
    (33 : ℚ) * 2 ^ (-37 : ℤ) ≤ (sig : ℚ) * 2 ^ exp ∧ (sig : ℚ) * 2 ^ exp ≤ 63 * 2 ^ (26 : ℤ)) ∧
  ∀ w w' : Uint12, f12Value w = f12Value w' → w = w' ∨ (isZeroPattern w ∧ isZeroPattern w')

/-- R91: F12_DEC_RAW, for every operand field. It changes the response bus and nothing else. -/
def Obligations.F12DecRawWritesValue : Prop :=
  ∀ (opnd : Word64) (s : State),
    decodeRequest (mkRequest 6 opnd) = .f12DecRaw (opnd.extractLsb' 0 12) ∧
    ∃ t, exec (.f12DecRaw (opnd.extractLsb' 0 12)) s = .next t ∧
      t = { s with rsp := t.rsp } ∧
      statusOf t.rsp = 0b00 ∧
      dataOf t.rsp = f12Value (opnd.extractLsb' 0 12)

/-- R92: F12_DEC, for every operand field: the value of the pair's word, or a draw of 64 bits. It
changes the response bus, and the count of draws where it draws, and nothing else. -/
def Obligations.F12DecWritesValueOrDraw : Prop :=
  ∀ (opnd : Word64) (s : State),
    decodeRequest (mkRequest 5 opnd) = .f12Dec (opnd.extractLsb' 8 8) (opnd.extractLsb' 0 8) ∧
    ∃ t, exec (.f12Dec (opnd.extractLsb' 8 8) (opnd.extractLsb' 0 8)) s = .next t ∧
      if decAt (opnd.extractLsb' 8 8) = 255 ∨ decAt (opnd.extractLsb' 0 8) = 255 then
        t = { s with rsp := t.rsp, draws := s.draws + 1 } ∧
        statusOf t.rsp = 0b01 ∧ dataOf t.rsp = Config.draw 64 s.draws
      else
        t = { s with rsp := t.rsp } ∧
        statusOf t.rsp = 0b00 ∧
        dataOf t.rsp = f12Value ((decAt (opnd.extractLsb' 8 8)).extractLsb' 0 6 ++
          (decAt (opnd.extractLsb' 0 8)).extractLsb' 0 6)

/-- R93, R95: F12_ENC and then F12_DEC of its symbols, in exact reals: zeros, NaN and underflow give
+0.0, the largest magnitude and all above it saturate with the sign, and the rest is truncated. -/
def Obligations.RoundTripInExactReals : Prop :=
  ∀ (x : Word64) (s : State), ∃ t u,
    exec (.f12Enc x) s = .next t ∧
    exec (.f12Dec ((dataOf t.rsp).extractLsb' 8 8) ((dataOf t.rsp).extractLsb' 0 8)) t = .next u ∧
    statusOf u.rsp = 0b00 ∧
    match classify x with
    | .nan => dataOf u.rsp = 0
    | .zero _ => dataOf u.rsp = 0
    | .infinite neg => dataOf u.rsp = if neg then 0xC1EF800000000000 else 0x41EF800000000000
    | .finite neg sig exp =>
      if (sig : ℚ) * 2 ^ exp < 33 * 2 ^ (-37 : ℤ) then dataOf u.rsp = 0
      else if 63 * 2 ^ (26 : ℤ) ≤ (sig : ℚ) * 2 ^ exp then
        dataOf u.rsp = if neg then 0xC1EF800000000000 else 0x41EF800000000000
      else
        ∃ E : ℤ, (2 : ℚ) ^ E ≤ (sig : ℚ) * 2 ^ exp ∧ (sig : ℚ) * 2 ^ exp < 2 ^ (E + 1) ∧
          (classify (dataOf u.rsp)).value = some
            ((if neg then -1 else 1) *
              ((⌊(sig : ℚ) * 2 ^ exp * 2 ^ (5 - E)⌋ : ℚ) * 2 ^ (E - 5)))

/-- R93, its last sentence, on words: decoding what was encoded gives the word back exactly for the
words that F12VAL gives. -/
def Obligations.RoundTripExactOnDecodedWords : Prop :=
  ∀ x : Word64, f12Value (f12Word x) = x ↔ ∃ w : Uint12, f12Value w = x

/-- R94: 1, 2, 4, −8, 16, 31, 32, 48, 63 and 0 come back exactly. -/
def Obligations.ListedNumbersRoundTrip : Prop :=
  let numbers : List Word64 :=
    [0x3FF0000000000000, 0x4000000000000000, 0x4010000000000000, 0xC020000000000000,
      0x4030000000000000, 0x403F000000000000, 0x4040000000000000, 0x4048000000000000,
      0x404F800000000000, 0x0000000000000000]
  numbers.map (fun x => f12Value (f12Word x)) = numbers

/-! ## Requests: encoding, decoding, the reserved operation (R40 to R46, R57, R60, R112) -/

/-- R40 to R42, R60: decoding the request word of an instruction gives the instruction back, for
every instruction and every operand. -/
def Obligations.DecodeOfEncode : Prop :=
  ∀ i : Instr, decode (encode i).toNat = .ok i

/-- R43: requests that differ only in ignored operand bits are the same operation, with the same
response. That two requests which draw answer the same draw in one state is the model's form of the
free input, one next draw per state (log 3). -/
def Obligations.IgnoredBitsDoNotMatter : Prop :=
  ∀ (op : BitVec 3) (a b : Word64),
    (∀ k, k < operandBits op → a.getLsbD k = b.getLsbD k) →
    decodeRequest (mkRequest op a) = decodeRequest (mkRequest op b) ∧
    ∀ s t u : State, issue (mkRequest op a) s = .next t → issue (mkRequest op b) s = .next u →
      t.rsp = u.rsp

/-- R60: its seven example words, and R57's op 7, decode to what they stand for. -/
def Obligations.ExampleWordsDecode : Prop :=
  decode 0x0000000000000003E = .ok (.b64Enc 62) ∧
  decode 0x1000000000000002D = .ok (.b64Dec 0x2D) ∧
  decode 0x20000000000000FFF = .ok (.u12Enc 0xFFF) ∧
  decode 0x30000000000005141 = .ok (.u12Dec 0x51 0x41) ∧
  decode 0x43FF0000000000000 = .ok (.f12Enc 0x3FF0000000000000) ∧
  decode 0x50000000000005141 = .ok (.f12Dec 0x51 0x41) ∧
  decode 0x60000000000000400 = .ok (.f12DecRaw 0x400) ∧
  decode 0x7FFFFFFFFFFFFFFFF = .ok .reserved

/-- R112: op 7, whatever its operand, is the fault ILLEGAL_OP, the state it leaves is marked faulted and
otherwise changed in its response bus and count of draws only, and the mark is never cleared. That the
fault carries the state it leaves, and that every step of a marked state is that fault with the state as
it is, are the model's choices (log 4). Of the response nothing is claimed (R112). -/
def Obligations.ReservedOperationFaults : Prop :=
  (∀ (opnd : Word64) (s : State),
    decodeRequest (mkRequest 7 opnd) = .reserved ∧
    ∃ t, exec .reserved s = .fault (.illegalOp t) ∧ t.faulted = true ∧
      t = { s with faulted := true, rsp := t.rsp, draws := t.draws }) ∧
  ∀ s : State, s.faulted = true → step s = .fault (.illegalOp s)

/-- R110, R41: every operation of R41 completes with a response in every state, with every operand. -/
def Obligations.EveryOperationCompletes : Prop :=
  ∀ (i : Instr) (s : State), i.WellFormed → ∃ t, exec i s = .next t

/-- R15, R23: an operation changes nothing but the response bus and the count of draws. -/
def Obligations.OperationsChangeOnlyTheResponse : Prop :=
  ∀ (i : Instr) (s t : State), exec i s = .next t →
    t = { s with rsp := t.rsp, draws := t.draws } ∧ s.draws ≤ t.draws ∧ t.draws ≤ s.draws + 1

/-- R23, R35, R126: the response is a function of the request alone, and of the draws made:
that a draw is a constant at the count of draws is the model's form of the free input (log 3). -/
def Obligations.ResponseDependsOnTheRequestAlone : Prop :=
  ∀ (i : Instr) (s s' t t' : State), exec i s = .next t → exec i s' = .next t' →
    (t.draws = s.draws ↔ t'.draws = s'.draws) ∧
    (t.draws = s.draws ∨ s.draws = s'.draws → t.rsp = t'.rsp)

/-- R46, R113: an operation's status is OK or INVALID_SYMBOL, and only the three decoders of bytes
report INVALID_SYMBOL. -/
def Obligations.StatusIsOkOrInvalidSymbol : Prop :=
  ∀ (i : Instr) (s t : State), exec i s = .next t →
    statusOf t.rsp = 0b00 ∨
    (statusOf t.rsp = 0b01 ∧
      match i with
      | .b64Dec b => decAt b = 255
      | .u12Dec b0 b1 => decAt b0 = 255 ∨ decAt b1 = 255
      | .f12Dec b0 b1 => decAt b0 = 255 ∨ decAt b1 = 255
      | _ => False)

/-- R14, R16: a step runs the instruction that the host's next request decodes to: the request goes on
the request bus and off the host's list, and the block serves it. -/
def Obligations.StepRunsTheDecodedRequest : Prop :=
  ∀ (s : State) (w : Request) (rest : List HostStep) (i : Instr),
    s.faulted = false → s.script = .request w :: rest → decode w.toNat = .ok i →
    step s = exec i { s with req := w, script := rest }

/-- A word placed with withFetchWord is run by the very next step (the model's choice of how a program
is placed: log 9). -/
def Obligations.PlacedWordRunsNext : Prop :=
  ∀ (s : State) (nbits w : Nat) (i : Instr),
    s.faulted = false → decodeTableWord nbits w = some i →
    step (s.withFetchWord nbits w) = exec i { s with req := BitVec.ofNat 67 (w % 2 ^ nbits) }

/-- R60: the assembler gives the seven example words. The fifth line of R60 writes its operand
`f64:1.0`; that a decimal is written here by the word it stands for, 0x3FF0000000000000, is the model's
choice (log 19). -/
def Obligations.AssemblerGivesExampleWords : Prop :=
  AsmLine.assemble ⟨"B64_ENC", [.int 62]⟩ = some 0x0000000000000003E ∧
  AsmLine.assemble ⟨"B64_DEC", [.char 0x2D]⟩ = some 0x1000000000000002D ∧
  AsmLine.assemble ⟨"U12_ENC", [.int 0xFFF]⟩ = some 0x20000000000000FFF ∧
  AsmLine.assemble ⟨"U12_DEC", [.char 0x51, .char 0x41]⟩ = some 0x30000000000005141 ∧
  AsmLine.assemble ⟨"F12_ENC", [.f64 0x3FF0000000000000]⟩ = some 0x43FF0000000000000 ∧
  AsmLine.assemble ⟨"F12_DEC", [.char 0x51, .char 0x41]⟩ = some 0x50000000000005141 ∧
  AsmLine.assemble ⟨"F12_DEC_RAW", [.int 0x400]⟩ = some 0x60000000000000400

/-! ## Reset (R25, R124) -/

/-- R25, R124: at reset the response bus holds a draw of 66 bits and no streaming call exists. That
nothing is marked, no buffer exists and no host step waits is the model's choice (log 4, 9, 11). -/
def Obligations.ResetState : Prop :=
  State.reset.rsp = Config.draw 66 0 ∧ State.reset.calls = [] ∧ State.reset.faulted = false ∧
  State.reset.byteBufs = [] ∧ State.reset.numBufs = [] ∧ State.reset.script = []

/-- The invariant of the machine holds at reset. -/
def Obligations.InvariantAtReset : Prop := State.reset.Inv

/-- The invariant of the machine is kept by every step, from every state that has it: streaming calls
stay sound, their outputs separate, and the machine unmarked (R34, R96 to R108). -/
def Obligations.InvariantKeptByStep : Prop :=
  ∀ s t : State, s.Inv → step s = .next t → t.Inv

/-! ## Host buffers (R26 to R33, R98)

That the host's actions are steps of one list is the model's choice (log 9, 10, 12). -/

/-- R28: taking a response into a slot writes its two symbols, the first at the lower address, and no
other byte; a slot outside the buffer is refused. -/
def Obligations.SlotWriteChangesTwoBytes : Prop :=
  ∀ (s : State) (buf o : Nat) (rest : List HostStep) (bytes : List Byte),
    s.faulted = false → s.script = .takePair buf o :: rest → s.bytesHeld buf = false →
    s.byteBufs[buf]? = some bytes →
    if o + 1 < bytes.length then
      ∃ t, step s = .next t ∧ t = { s with script := rest, byteBufs := t.byteBufs } ∧
        t.byteAt buf o = some ((dataOf s.rsp).extractLsb' 8 8) ∧
        t.byteAt buf (o + 1) = some ((dataOf s.rsp).extractLsb' 0 8) ∧
        ∀ buf' a, buf' ≠ buf ∨ (a ≠ o ∧ a ≠ o + 1) → t.byteAt buf' a = s.byteAt buf' a
    else step s = .refused .outsideBuffer

/-- R12, R26, R27 and R33, row B64_ENC: a host write of one byte, be it a given byte or the response's
data[7:0], writes that byte and no other; an address outside the buffer is refused. -/
def Obligations.MemWriteChangesOneByte : Prop :=
  ∀ (s : State) (h : HostStep) (buf a : Nat) (v : Byte) (rest : List HostStep) (bytes : List Byte),
    s.faulted = false → s.script = h :: rest →
    h = .memWrite buf a v ∨ (h = .takeByte buf a ∧ v = (dataOf s.rsp).extractLsb' 0 8) →
    s.bytesHeld buf = false → s.byteBufs[buf]? = some bytes →
    if a < bytes.length then
      ∃ t, step s = .next t ∧ t = { s with script := rest, byteBufs := t.byteBufs } ∧
        t.byteAt buf a = some v ∧
        ∀ buf' a', buf' ≠ buf ∨ a' ≠ a → t.byteAt buf' a' = s.byteAt buf' a'
    else step s = .refused .outsideBuffer

/-- R26, R27 and R33, row F12_DEC: a host write of one element of a number buffer, be it a given word or
the response's data[63:0], writes that element and no other; an index outside the buffer is refused. -/
def Obligations.TakeNumChangesOneElement : Prop :=
  ∀ (s : State) (h : HostStep) (buf i : Nat) (v : Word64) (rest : List HostStep)
    (nums : List Word64),
    s.faulted = false → s.script = h :: rest →
    h = .numWrite buf i v ∨ (h = .takeNum buf i ∧ v = dataOf s.rsp) →
    s.numsHeld buf = false → s.numBufs[buf]? = some nums →
    if i < nums.length then
      ∃ t, step s = .next t ∧ t = { s with script := rest, numBufs := t.numBufs } ∧
        t.numAt buf i = some v ∧
        ∀ buf' i', buf' ≠ buf ∨ i' ≠ i → t.numAt buf' i' = s.numAt buf' i'
    else step s = .refused .outsideBuffer

/-- R27, R33: a request whose operand is one byte of a buffer is B64_DEC of that byte; a read outside
the buffer is refused. A byte of an unfinished call's output is not defined to the caller (R109); that
it reads as the next draw is the model's form of it (log 3, 14). -/
def Obligations.SentByteIsDecoded : Prop :=
  ∀ (s : State) (buf a : Nat) (rest : List HostStep),
    s.faulted = false → s.script = .sendByte buf a :: rest →
    match s.byteAt buf a with
    | some b =>
      if ∃ d ∈ s.calls, d.finished = false ∧ d.dir = .encode ∧ d.output = buf then
        let b' := Config.draw 8 s.draws
        step s = exec (.b64Dec b')
          { s with req := encode (.b64Dec b'), script := rest, draws := s.draws + 1 }
      else step s = exec (.b64Dec b) { s with req := encode (.b64Dec b), script := rest }
    | none => step s = .refused .outsideBuffer

/-- R33: a request whose operands are two bytes of a buffer is U12_DEC or F12_DEC of those bytes, in
their order; a read outside the buffer is refused (R27). Bytes of an unfinished call's output are not
defined to the caller (R109); that they read as the next two draws is the model's form of it (log 3,
14). -/
def Obligations.SentPairIsDecoded : Prop :=
  ∀ (s : State) (buf a0 a1 : Nat) (rest : List HostStep) (op : PairOp),
    s.faulted = false → s.script = .sendPair op buf a0 a1 :: rest →
    match s.byteAt buf a0, s.byteAt buf a1 with
    | some b0, some b1 =>
      if ∃ d ∈ s.calls, d.finished = false ∧ d.dir = .encode ∧ d.output = buf then
        let i := op.instr (Config.draw 8 s.draws) (Config.draw 8 (s.draws + 1))
        step s = exec i { s with req := encode i, script := rest, draws := s.draws + 2 }
      else
        step s = exec (op.instr b0 b1) { s with req := encode (op.instr b0 b1), script := rest }
    | _, _ => step s = .refused .outsideBuffer

/-- R27, R33: a request whose operand is one element of a number buffer is F12_ENC of that element; a
read outside the buffer is refused. An element of an unfinished call's output is not defined to the
caller (R109); that it reads as the next draw is the model's form of it (log 3, 14). -/
def Obligations.SentNumberIsEncoded : Prop :=
  ∀ (s : State) (buf i : Nat) (rest : List HostStep),
    s.faulted = false → s.script = .sendNum buf i :: rest →
    match s.numAt buf i with
    | some x =>
      if ∃ d ∈ s.calls, d.finished = false ∧ d.dir = .decode ∧ d.output = buf then
        let x' := Config.draw 64 s.draws
        step s = exec (.f12Enc x')
          { s with req := encode (.f12Enc x'), script := rest, draws := s.draws + 1 }
      else step s = exec (.f12Enc x) { s with req := encode (.f12Enc x), script := rest }
    | none => step s = .refused .outsideBuffer

/-- R98: strings are joined in order with nothing inserted, a code above 0xFF taken as 0xFF. -/
def Obligations.TextIsJoined : Prop :=
  ∀ (s : State) (strings : List (List Nat)) (rest : List HostStep),
    s.faulted = false → s.script = .newText strings :: rest →
    ∃ (t : State) (bytes : List Byte), step s = .next t ∧
      t = { s with script := rest, byteBufs := s.byteBufs ++ [bytes] } ∧
      bytes.length = strings.flatten.length ∧
      ∀ a code : Nat, strings.flatten[a]? = some code →
        (bytes[a]?).map BitVec.toNat = some (if code ≤ 0xFF then code else 0xFF)

/-! ## Stream driver (R97 to R109)

That one machine step is one driver step, and that a running `resume()` stays the host's next step, is
the model's choice (log 12). -/

/-- R97, R100: the start of a DECODE call on a byte buffer that no unfinished call fills. That the output
is an empty buffer while lines are still to be skipped, to be sized when the skip ends, is the model's
choice (log 21): R100 says only that it is sized on entering the DATA phase. -/
def Obligations.DecodeCallStarts : Prop :=
  ∀ (s : State) (input skip suspend : Nat) (rest : List HostStep) (bytes : List Byte),
    s.faulted = false → s.script = .startDecode input skip suspend :: rest →
    s.bytesFilling input = false → s.byteBufs[input]? = some bytes →
    if suspend = 0 then step s = .refused .suspendCountZero
    else
      ∃ t out, step s = .next t ∧
        t = { s with
          script := rest, draws := t.draws, numBufs := s.numBufs ++ [out],
          calls := s.calls ++ [{
            dir := .decode, input := input, pos := 0, processed := 0, total := bytes.length,
            sinceYield := 0, phase := if 0 < skip then .skip else .data, lines := 0,
            pending := none, output := s.numBufs.length, outCount := 0, skipLineCount := skip,
            suspendCount := suspend, returned := [] }] } ∧
        out.length = if 0 < skip then 0 else bytes.length / 2

/-- R97, R103: the start of an ENCODE call on a number buffer that no unfinished call fills. -/
def Obligations.EncodeCallStarts : Prop :=
  ∀ (s : State) (input suspend : Nat) (rest : List HostStep) (nums : List Word64),
    s.faulted = false → s.script = .startEncode input suspend :: rest →
    s.numsFilling input = false → s.numBufs[input]? = some nums →
    if suspend = 0 then step s = .refused .suspendCountZero
    else
      ∃ t out, step s = .next t ∧
        t = { s with
          script := rest, draws := t.draws, byteBufs := s.byteBufs ++ [out],
          calls := s.calls ++ [{
            dir := .encode, input := input, pos := 0, processed := 0, total := nums.length,
            sinceYield := 0, phase := .data, lines := 0, pending := none,
            output := s.byteBufs.length, outCount := 0, skipLineCount := 0,
            suspendCount := suspend, returned := [] }] } ∧
        out.length = 2 * nums.length

/-- R99, R100: a step of the SKIP phase takes one byte, or the two of CR-LF, counts a line break, and
enters the DATA phase at the last one; it sends nothing to the block and decodes nothing. -/
def Obligations.SkipStepCountsLines : Prop :=
  ∀ (c : Call) (s : State) (b : Byte),
    c.dir = .decode → c.phase = .skip → s.byteAt c.input c.pos = some b →
    let n := if b = 0x0D ∧ c.pos + 1 < c.total ∧ s.byteAt c.input (c.pos + 1) = some 0x0A
      then 2 else 1
    let l := if b = 0x0D ∨ b = 0x0A then c.lines + 1 else c.lines
    ∃ s', driverStep c s = .next
        ({ c with
          pos := c.pos + n, processed := c.processed + n, sinceYield := c.sinceYield + n,
          lines := l, phase := if l = c.skipLineCount then .data else .skip }, s') ∧
      if l = c.skipLineCount then
        s' = { s with draws := s'.draws, numBufs := s'.numBufs } ∧
        (∀ buf, buf ≠ c.output → s'.numBufs[buf]? = s.numBufs[buf]?) ∧
        ∀ out, s'.numBufs[c.output]? = some out → out.length = (c.total - (c.pos + n)) / 2
      else s' = s

/-- R101: a step of the DATA phase skips an invalid byte or holds the first symbol of a unit, whatever
room the output has, or completes a unit and appends its value where the output has room. -/
def Obligations.DataStepDecodesUnits : Prop :=
  ∀ (c : Call) (s : State) (b : Byte),
    c.dir = .decode → c.phase = .data → s.byteAt c.input c.pos = some b →
    let c1 : Call := { c with
      pos := c.pos + 1, processed := c.processed + 1, sinceYield := c.sinceYield + 1 }
    if decAt b = 255 then
      ∃ u, driverStep c s = .next (c1, u) ∧ u = { s with req := u.req, rsp := u.rsp }
    else
      match c.pending with
      | none =>
        ∃ u, driverStep c s = .next ({ c1 with pending := some b }, u) ∧
          u = { s with req := u.req, rsp := u.rsp }
      | some first =>
        ∀ out : List Word64, s.numBufs[c.output]? = some out → c.outCount < out.length →
          ∃ u, driverStep c s =
              .next ({ c1 with pending := none, outCount := c.outCount + 1 }, u) ∧
            (decAt first ≠ 255 →
              u = { s with
                req := u.req, rsp := u.rsp,
                numBufs := s.numBufs.set c.output (out.set c.outCount
                  (f12Value ((decAt first).extractLsb' 0 6 ++ (decAt b).extractLsb' 0 6))) })

/-- R103: a step of an ENCODE call writes the two symbols of one number into its slot. -/
def Obligations.EncodeStepWritesSlot : Prop :=
  ∀ (c : Call) (s : State) (x : Word64) (out : List Byte),
    c.dir = .encode → s.numAt c.input c.pos = some x → s.byteBufs[c.output]? = some out →
    2 * c.pos + 1 < out.length →
    ∃ s', driverStep c s = .next
        ({ c with
          pos := c.pos + 1, processed := c.processed + 1, sinceYield := c.sinceYield + 1 }, s') ∧
      s' = { s with
        req := s'.req, rsp := s'.rsp,
        byteBufs := s.byteBufs.set c.output
          ((out.set (2 * c.pos) (encAt ((f12Word x).extractLsb' 6 6))).set (2 * c.pos + 1)
            (encAt ((f12Word x).extractLsb' 0 6))) }

/-- R104, R105, R34: a resume that returns Yielded does so between units, with the progress accumulator,
and the count since the last yield begins again. And it returns whenever it should: after a driver step
it yields whenever no symbol is pending and at least suspendCount elements were processed since the last
yield, returns Done exactly when the input is at its end and it does not yield, and otherwise goes on;
with no input left it returns Done at once. -/
def Obligations.YieldsOnlyBetweenUnits : Prop :=
  (∀ (s t : State) (k : Nat) (rest : List HostStep) (c c' : Call) (p q : Nat),
    s.script = .resume k :: rest → step s = .next t →
    s.calls[k]? = some c → t.calls[k]? = some c' → c'.returned = .yielded p q :: c.returned →
    c'.pending = none ∧ p = c'.processed ∧ q = c'.total ∧ c'.sinceYield = 0 ∧ t.script = rest ∧
    c.suspendCount ≤ c.sinceYield + (c'.pos - c.pos)) ∧
  ∀ (s : State) (k : Nat) (rest : List HostStep) (c : Call),
    s.faulted = false → s.script = .resume k :: rest → s.calls[k]? = some c → c.finished = false →
    if c.pos < c.total then
      ∀ (d : Call) (u : State), driverStep c s = .next (d, u) →
        ∃ t c', step s = .next t ∧ t.calls[k]? = some c' ∧
          if d.pending = none ∧ c.suspendCount ≤ c.sinceYield + (d.pos - c.pos) then
            c'.returned = .yielded d.processed d.total :: c.returned ∧ t.script = rest
          else if d.pos = c.total then c'.returned = .done :: c.returned ∧ t.script = rest
          else c'.returned = c.returned ∧ t.script = s.script
    else
      ∃ t c', step s = .next t ∧ t.calls[k]? = some c' ∧
        c'.returned = .done :: c.returned ∧ t.script = rest

/-- R105, R102, R103: a call that ends has consumed its whole input; a symbol still held is dropped; a
DECODE output is the first outCount elements of the buffer as the last driver step left it, and an
ENCODE output is that buffer unchanged, two bytes a number. No other buffer changes at the end. A call
that ends without a step, having no input left, delivers the buffer as it stands. -/
def Obligations.DoneDeliversTheWholeOutput : Prop :=
  ∀ (s t : State) (k : Nat) (rest : List HostStep) (c c' : Call),
    s.Inv → s.script = .resume k :: rest → step s = .next t →
    s.calls[k]? = some c → c.finished = false → t.calls[k]? = some c' → c'.finished = true →
    ∃ d u, (if c.pos < c.total then driverStep c s = .next (d, u) else d = c ∧ u = s) ∧
      c' = { d with pending := none, returned := .done :: c.returned } ∧
      c'.dir = c.dir ∧ c'.output = c.output ∧ c'.total = c.total ∧
      c'.pos = c.total ∧ c'.processed = c.total ∧ t.script = rest ∧
      t.byteBufs = u.byteBufs ∧
      match c.dir with
      | .decode =>
        ∃ out, u.numBufs[c.output]? = some out ∧ c'.outCount ≤ out.length ∧
          t.numBufs = u.numBufs.set c.output (out.take c'.outCount)
      | .encode =>
        t.numBufs = u.numBufs ∧ ∃ out, t.byteBufs[c.output]? = some out ∧ out.length = 2 * c.total

/-- R100, R101, R104 to R106: under the invariant, resuming an unfinished call is never refused and never
faults. With input left it takes one driver step, which consumes input and writes no buffer but the
call's own output; call k then has the fields that the step left, but for what a yield or the end sets,
the buffers are those that the step left, but for the trimming at the end, and every other call is
unchanged. With no input left the call ends. -/
def Obligations.UnfinishedCallsResume : Prop :=
  ∀ (s : State) (k : Nat) (rest : List HostStep) (c : Call),
    s.Inv → s.script = .resume k :: rest → s.calls[k]? = some c → c.finished = false →
    ∃ t, step s = .next t ∧
      if c.pos < c.total then
        ∃ d u, driverStep c s = .next (d, u) ∧ c.pos < d.pos ∧ d.pos ≤ c.total ∧
          d.returned = c.returned ∧ c.OnlyOutputChanges s u ∧
          u = { s with
            req := u.req, rsp := u.rsp, draws := u.draws, byteBufs := u.byteBufs,
            numBufs := u.numBufs } ∧
          if d.pending = none ∧ c.suspendCount ≤ d.sinceYield then
            t = { u with
              script := rest,
              calls := s.calls.set k { d with
                sinceYield := 0, returned := .yielded d.processed d.total :: c.returned } }
          else if d.pos < c.total then t = { u with calls := s.calls.set k d }
          else
            c.OnlyOutputChanges u t ∧
            t = { u with
              script := rest, numBufs := t.numBufs,
              calls := s.calls.set k { d with
                pending := none, returned := .done :: c.returned } }
      else
        c.OnlyOutputChanges s t ∧
        t = { s with
          script := rest, numBufs := t.numBufs,
          calls := s.calls.set k { c with pending := none, returned := .done :: c.returned } }

/-- R101: under the invariant, a call in its DATA phase never asks the block for a draw: its F12_DEC
requests have two valid bytes. -/
def Obligations.DriverNeverDrawsInData : Prop :=
  ∀ (s t : State) (k : Nat) (rest : List HostStep) (c : Call),
    s.Inv → s.script = .resume k :: rest → s.calls[k]? = some c → c.phase = .data →
    step s = .next t → t.draws = s.draws

/-- R106: a host step that neither begins nor resumes a call, nor writes a finished call's progress
accumulator, changes no call. -/
def Obligations.OtherStepsLeaveCalls : Prop :=
  ∀ (s t : State) (h : HostStep) (rest : List HostStep),
    s.script = h :: rest → step s = .next t →
    (match h with
      | .startDecode _ _ _ => False
      | .startEncode _ _ => False
      | .resume _ => False
      | .writeProgress _ _ _ => False
      | _ => True) →
    t.calls = s.calls

/-- R107: the output of a call does not depend on the chunk size: two runs of one call to its end, from
states that differ only in suspend counts and yields, leave the same buffers. -/
def Obligations.OutputDoesNotDependOnChunks : Prop :=
  ∀ (s t s' t' : State) (k m₁ m₂ n₁ n₂ : Nat) (c d : Call),
    State.SameButChunks s t →
    s.script = List.replicate m₁ (.resume k) → t.script = List.replicate m₂ (.resume k) →
    runSteps n₁ s = .next s' → runSteps n₂ t = .next t' →
    s'.calls[k]? = some c → t'.calls[k]? = some d → c.finished = true → d.finished = true →
    s'.byteBufs = t'.byteBufs ∧ s'.numBufs = t'.numBufs

/-- R109: a host step that writes the input, the output or the progress accumulator of an unfinished
call is refused. -/
def Obligations.SuspendedCallsAreNotWritten : Prop :=
  ∀ (s : State) (h : HostStep) (rest : List HostStep) (k : Nat) (c : Call),
    s.faulted = false → s.script = h :: rest → s.calls[k]? = some c → c.finished = false →
    (match h with
      | .memWrite buf _ _ | .takeByte buf _ | .takePair buf _ =>
        (c.dir = .decode ∧ c.input = buf) ∨ (c.dir = .encode ∧ c.output = buf)
      | .numWrite buf _ _ | .takeNum buf _ =>
        (c.dir = .encode ∧ c.input = buf) ∨ (c.dir = .decode ∧ c.output = buf)
      | .writeProgress j _ _ => j = k
      | _ => False) →
    step s = .refused .heldByCall
end

