-- ==== Sys2Proof/Laws/State.lean ====
section
/-! SUPPORT. Each field of State after each named update, so that no proof unfolds a record update. -/

namespace Sys2Proof.Machine

variable (s : State)

@[simp] theorem State.present_req (w : Request) : (s.present w).req = w := rfl
@[simp] theorem State.present_rsp (w : Request) : (s.present w).rsp = s.rsp := rfl
@[simp] theorem State.present_faulted (w : Request) : (s.present w).faulted = s.faulted := rfl
@[simp] theorem State.present_draws (w : Request) : (s.present w).draws = s.draws := rfl
@[simp] theorem State.present_script (w : Request) : (s.present w).script = s.script := rfl
@[simp] theorem State.present_byteBufs (w : Request) : (s.present w).byteBufs = s.byteBufs := rfl
@[simp] theorem State.present_numBufs (w : Request) : (s.present w).numBufs = s.numBufs := rfl
@[simp] theorem State.present_calls (w : Request) : (s.present w).calls = s.calls := rfl

@[simp] theorem State.respond_req (st : Status) (data : Word64) :
    (s.respond st data).req = s.req := rfl
@[simp] theorem State.respond_rsp (st : Status) (data : Word64) :
    (s.respond st data).rsp = mkResponse st data := rfl
@[simp] theorem State.respond_faulted (st : Status) (data : Word64) :
    (s.respond st data).faulted = s.faulted := rfl
@[simp] theorem State.respond_draws (st : Status) (data : Word64) :
    (s.respond st data).draws = s.draws := rfl
@[simp] theorem State.respond_script (st : Status) (data : Word64) :
    (s.respond st data).script = s.script := rfl
@[simp] theorem State.respond_byteBufs (st : Status) (data : Word64) :
    (s.respond st data).byteBufs = s.byteBufs := rfl
@[simp] theorem State.respond_numBufs (st : Status) (data : Word64) :
    (s.respond st data).numBufs = s.numBufs := rfl
@[simp] theorem State.respond_calls (st : Status) (data : Word64) :
    (s.respond st data).calls = s.calls := rfl

@[simp] theorem State.drew_req (n : Nat) : (s.drew n).req = s.req := rfl
@[simp] theorem State.drew_rsp (n : Nat) : (s.drew n).rsp = s.rsp := rfl
@[simp] theorem State.drew_faulted (n : Nat) : (s.drew n).faulted = s.faulted := rfl
@[simp] theorem State.drew_draws (n : Nat) : (s.drew n).draws = s.draws + n := rfl
@[simp] theorem State.drew_script (n : Nat) : (s.drew n).script = s.script := rfl
@[simp] theorem State.drew_byteBufs (n : Nat) : (s.drew n).byteBufs = s.byteBufs := rfl
@[simp] theorem State.drew_numBufs (n : Nat) : (s.drew n).numBufs = s.numBufs := rfl
@[simp] theorem State.drew_calls (n : Nat) : (s.drew n).calls = s.calls := rfl

@[simp] theorem State.respondDraw_req (width : Nat) : (s.respondDraw width).req = s.req := rfl
@[simp] theorem State.respondDraw_rsp (width : Nat) :
    (s.respondDraw width).rsp = mkResponse .invalidSymbol ((s.draw width).setWidth 64) := rfl
@[simp] theorem State.respondDraw_faulted (width : Nat) :
    (s.respondDraw width).faulted = s.faulted := rfl
@[simp] theorem State.respondDraw_draws (width : Nat) :
    (s.respondDraw width).draws = s.draws + 1 := rfl
@[simp] theorem State.respondDraw_script (width : Nat) :
    (s.respondDraw width).script = s.script := rfl
@[simp] theorem State.respondDraw_byteBufs (width : Nat) :
    (s.respondDraw width).byteBufs = s.byteBufs := rfl
@[simp] theorem State.respondDraw_numBufs (width : Nat) :
    (s.respondDraw width).numBufs = s.numBufs := rfl
@[simp] theorem State.respondDraw_calls (width : Nat) :
    (s.respondDraw width).calls = s.calls := rfl

@[simp] theorem State.illegalOp_req : s.illegalOp.req = s.req := rfl
@[simp] theorem State.illegalOp_rsp : s.illegalOp.rsp = mkResponse .illegalOp (s.draw 64) := rfl
@[simp] theorem State.illegalOp_faulted : s.illegalOp.faulted = true := rfl
@[simp] theorem State.illegalOp_draws : s.illegalOp.draws = s.draws + 1 := rfl
@[simp] theorem State.illegalOp_script : s.illegalOp.script = s.script := rfl
@[simp] theorem State.illegalOp_byteBufs : s.illegalOp.byteBufs = s.byteBufs := rfl
@[simp] theorem State.illegalOp_numBufs : s.illegalOp.numBufs = s.numBufs := rfl
@[simp] theorem State.illegalOp_calls : s.illegalOp.calls = s.calls := rfl

@[simp] theorem State.withScript_req (rest : List HostStep) :
    (s.withScript rest).req = s.req := rfl
@[simp] theorem State.withScript_rsp (rest : List HostStep) :
    (s.withScript rest).rsp = s.rsp := rfl
@[simp] theorem State.withScript_faulted (rest : List HostStep) :
    (s.withScript rest).faulted = s.faulted := rfl
@[simp] theorem State.withScript_draws (rest : List HostStep) :
    (s.withScript rest).draws = s.draws := rfl
@[simp] theorem State.withScript_script (rest : List HostStep) :
    (s.withScript rest).script = rest := rfl
@[simp] theorem State.withScript_byteBufs (rest : List HostStep) :
    (s.withScript rest).byteBufs = s.byteBufs := rfl
@[simp] theorem State.withScript_numBufs (rest : List HostStep) :
    (s.withScript rest).numBufs = s.numBufs := rfl
@[simp] theorem State.withScript_calls (rest : List HostStep) :
    (s.withScript rest).calls = s.calls := rfl

@[simp] theorem State.withCalls_req (cs : List Call) : (s.withCalls cs).req = s.req := rfl
@[simp] theorem State.withCalls_rsp (cs : List Call) : (s.withCalls cs).rsp = s.rsp := rfl
@[simp] theorem State.withCalls_faulted (cs : List Call) :
    (s.withCalls cs).faulted = s.faulted := rfl
@[simp] theorem State.withCalls_draws (cs : List Call) : (s.withCalls cs).draws = s.draws := rfl
@[simp] theorem State.withCalls_script (cs : List Call) :
    (s.withCalls cs).script = s.script := rfl
@[simp] theorem State.withCalls_byteBufs (cs : List Call) :
    (s.withCalls cs).byteBufs = s.byteBufs := rfl
@[simp] theorem State.withCalls_numBufs (cs : List Call) :
    (s.withCalls cs).numBufs = s.numBufs := rfl
@[simp] theorem State.withCalls_calls (cs : List Call) : (s.withCalls cs).calls = cs := rfl

@[simp] theorem State.withBytes_req (bs : List (List Byte)) : (s.withBytes bs).req = s.req := rfl
@[simp] theorem State.withBytes_rsp (bs : List (List Byte)) : (s.withBytes bs).rsp = s.rsp := rfl
@[simp] theorem State.withBytes_faulted (bs : List (List Byte)) :
    (s.withBytes bs).faulted = s.faulted := rfl
@[simp] theorem State.withBytes_draws (bs : List (List Byte)) :
    (s.withBytes bs).draws = s.draws := rfl
@[simp] theorem State.withBytes_script (bs : List (List Byte)) :
    (s.withBytes bs).script = s.script := rfl
@[simp] theorem State.withBytes_byteBufs (bs : List (List Byte)) :
    (s.withBytes bs).byteBufs = bs := rfl
@[simp] theorem State.withBytes_numBufs (bs : List (List Byte)) :
    (s.withBytes bs).numBufs = s.numBufs := rfl
@[simp] theorem State.withBytes_calls (bs : List (List Byte)) :
    (s.withBytes bs).calls = s.calls := rfl

@[simp] theorem State.withNums_req (ns : List (List Word64)) : (s.withNums ns).req = s.req := rfl
@[simp] theorem State.withNums_rsp (ns : List (List Word64)) : (s.withNums ns).rsp = s.rsp := rfl
@[simp] theorem State.withNums_faulted (ns : List (List Word64)) :
    (s.withNums ns).faulted = s.faulted := rfl
@[simp] theorem State.withNums_draws (ns : List (List Word64)) :
    (s.withNums ns).draws = s.draws := rfl
@[simp] theorem State.withNums_script (ns : List (List Word64)) :
    (s.withNums ns).script = s.script := rfl
@[simp] theorem State.withNums_byteBufs (ns : List (List Word64)) :
    (s.withNums ns).byteBufs = s.byteBufs := rfl
@[simp] theorem State.withNums_numBufs (ns : List (List Word64)) :
    (s.withNums ns).numBufs = ns := rfl
@[simp] theorem State.withNums_calls (ns : List (List Word64)) :
    (s.withNums ns).calls = s.calls := rfl

@[simp] theorem State.sizeOutput_req (output remaining : Nat) :
    (s.sizeOutput output remaining).req = s.req := rfl
@[simp] theorem State.sizeOutput_rsp (output remaining : Nat) :
    (s.sizeOutput output remaining).rsp = s.rsp := rfl
@[simp] theorem State.sizeOutput_faulted (output remaining : Nat) :
    (s.sizeOutput output remaining).faulted = s.faulted := rfl
@[simp] theorem State.sizeOutput_draws (output remaining : Nat) :
    (s.sizeOutput output remaining).draws = s.draws + remaining / 2 := rfl
@[simp] theorem State.sizeOutput_script (output remaining : Nat) :
    (s.sizeOutput output remaining).script = s.script := rfl
@[simp] theorem State.sizeOutput_byteBufs (output remaining : Nat) :
    (s.sizeOutput output remaining).byteBufs = s.byteBufs := rfl
@[simp] theorem State.sizeOutput_numBufs (output remaining : Nat) :
    (s.sizeOutput output remaining).numBufs = s.numBufs.set output (freshNums s.draws (remaining / 2)) := rfl
@[simp] theorem State.sizeOutput_calls (output remaining : Nat) :
    (s.sizeOutput output remaining).calls = s.calls := rfl

@[simp] theorem State.present_draw (width : Nat) (w : Request) :
    (s.present w).draw width = s.draw width := rfl
@[simp] theorem State.withScript_draw (width : Nat) (rest : List HostStep) :
    (s.withScript rest).draw width = s.draw width := rfl
@[simp] theorem State.withCalls_draw (width : Nat) (cs : List Call) :
    (s.withCalls cs).draw width = s.draw width := rfl
@[simp] theorem State.withBytes_draw (width : Nat) (bs : List (List Byte)) :
    (s.withBytes bs).draw width = s.draw width := rfl
@[simp] theorem State.withNums_draw (width : Nat) (ns : List (List Word64)) :
    (s.withNums ns).draw width = s.draw width := rfl

end Sys2Proof.Machine
end

