-- ==== Sys2Proof/Laws/Ops.lean ====
section
/-! SUPPORT. What each shared operation of the block can do, said once. -/

namespace Sys2Proof.Machine

/-! ## Outcomes -/

section
variable {α β φ ρ : Type}

@[simp] theorem andThen_next (a : α) (f : α → Host.Outcome β φ ρ) :
    andThen (.next a) f = f a := rfl

@[simp] theorem andThen_fault (r : φ) (f : α → Host.Outcome β φ ρ) :
    andThen (.fault r) f = .fault r := rfl

@[simp] theorem andThen_refused (r : ρ) (f : α → Host.Outcome β φ ρ) :
    andThen (.refused r) f = .refused r := rfl

/-- A sequence answers next exactly when both of its parts do. -/
theorem andThen_eq_next {o : Host.Outcome α φ ρ} {f : α → Host.Outcome β φ ρ} {b : β} :
    andThen o f = .next b ↔ ∃ a, o = .next a ∧ f a = .next b := by
  cases o <;> simp

end

section
variable {α β : Type}

@[simp] theorem orRefuse_some (r : Refusal) (a : α) (f : α → Host.Outcome β Fault Refusal) :
    orRefuse r (some a) f = f a := rfl

@[simp] theorem orRefuse_none (r : Refusal) (f : α → Host.Outcome β Fault Refusal) :
    orRefuse r none f = .refused r := rfl

/-- A step that needs a value answers next exactly when the value is there and the rest does. -/
theorem orRefuse_eq_next {r : Refusal} {o : Option α} {f : α → Host.Outcome β Fault Refusal} {b : β} :
    orRefuse r o f = .next b ↔ ∃ a, o = some a ∧ f a = .next b := by
  cases o <;> simp

end

/-! ## Words of the two buses -/

@[simp] theorem statusOf_mkResponse (st : Status) (data : Word64) :
    statusOf (mkResponse st data) = st.code := by
  ext i hi
  simp only [statusOf, mkResponse, BitVec.getElem_extractLsb', BitVec.getLsbD_append]
  simp [BitVec.getLsbD_eq_getElem hi]

@[simp] theorem dataOf_mkResponse (st : Status) (data : Word64) :
    dataOf (mkResponse st data) = data := by
  ext i hi
  simp only [dataOf, mkResponse, BitVec.getElem_extractLsb', BitVec.getLsbD_append]
  simp [hi]

@[simp] theorem op_mkRequest (op : BitVec 3) (opnd : Word64) : (mkRequest op opnd).op = op := by
  ext i hi
  simp only [Request.op, mkRequest, BitVec.getElem_extractLsb', BitVec.getLsbD_append]
  simp [BitVec.getLsbD_eq_getElem hi]

@[simp] theorem opnd_mkRequest (op : BitVec 3) (opnd : Word64) : (mkRequest op opnd).opnd = opnd := by
  ext i hi
  simp only [Request.opnd, mkRequest, BitVec.getElem_extractLsb', BitVec.getLsbD_append]
  simp [hi]

/-! ## Symbol pairs -/

/-- A pair has a value exactly when both bytes are valid, and then it is this one (R67). -/
theorem pairValue_eq_some {b0 b1 : Byte} {v : Uint12} :
    pairValue b0 b1 = some v ↔
      decAt b0 ≠ 255 ∧ decAt b1 ≠ 255 ∧
        v = (decAt b0).extractLsb' 0 6 ++ (decAt b1).extractLsb' 0 6 := by
  unfold pairValue
  split
  · rename_i h
    constructor
    · intro h'
      cases h'
    · rintro ⟨h0, h1, -⟩
      exact (h.elim h0 h1).elim
  · rename_i h
    rw [not_or] at h
    rw [Option.some.injEq, eq_comm]
    exact ⟨fun hv => ⟨h.1, h.2, hv⟩, fun hv => hv.2.2⟩

/-- A pair has no value exactly when one of its bytes is INVALID (R67). -/
theorem pairValue_eq_none {b0 b1 : Byte} :
    pairValue b0 b1 = none ↔ decAt b0 = 255 ∨ decAt b1 = 255 := by
  unfold pairValue
  split <;> simp_all

/-! ## Operations -/

/-- All that an operation can do: answer OK, or INVALID_SYMBOL with the table's value, without a
draw; answer INVALID_SYMBOL with a draw; or be the reserved one and fault. -/
theorem exec_cases (i : Instr) (s : State) :
    (∃ st data, st ≠ Status.illegalOp ∧ exec i s = .next (s.respond st data)) ∨
    (∃ width, exec i s = .next (s.respondDraw width)) ∨
    (i = .reserved ∧ exec i s = .fault (.illegalOp s.illegalOp)) := by
  cases i with
  | b64Enc v => exact .inl ⟨_, _, by decide, rfl⟩
  | b64Dec b =>
    refine .inl ⟨_, _, ?_, rfl⟩
    unfold statusOfValue
    split <;> decide
  | u12Enc v => exact .inl ⟨_, _, by decide, rfl⟩
  | u12Dec b0 b1 =>
    simp only [exec, execU12Dec]
    cases pairValue b0 b1 with
    | some v => exact .inl ⟨_, _, by decide, rfl⟩
    | none => exact .inr (.inl ⟨_, rfl⟩)
  | f12Enc x => exact .inl ⟨_, _, by decide, rfl⟩
  | f12Dec b0 b1 =>
    simp only [exec, execF12Dec]
    cases pairValue b0 b1 with
    | some v => exact .inl ⟨_, _, by decide, rfl⟩
    | none => exact .inr (.inl ⟨_, rfl⟩)
  | f12DecRaw w => exact .inl ⟨_, _, by decide, rfl⟩
  | reserved => exact .inr (.inr ⟨rfl, rfl⟩)

end Sys2Proof.Machine
end

