-- ==== Sys2Proof/Laws/HostBuffers.lean ====
section
/-! SUPPORT. What each operation over the host's buffers can do, said once. A buffer is a dense list, so
equal buffers are equal data; every write keeps a buffer's length and every other buffer. -/

namespace Sys2Proof.Machine

/-- A byte is read exactly where its buffer has it (R27). -/
theorem State.byteAt_eq_some {s : State} {buf a : Nat} {v : Byte} :
    s.byteAt buf a = some v ↔ ∃ bytes, s.byteBufs[buf]? = some bytes ∧ bytes[a]? = some v := by
  unfold State.byteAt
  split <;> simp_all

/-- A number is read exactly where its buffer has it (R27). -/
theorem State.numAt_eq_some {s : State} {buf i : Nat} {v : Word64} :
    s.numAt buf i = some v ↔ ∃ nums, s.numBufs[buf]? = some nums ∧ nums[i]? = some v := by
  unfold State.numAt
  split <;> simp_all

/-- All that a byte write can do: where the address is in the buffer, that one byte changes. -/
theorem State.putByte_eq_some {s t : State} {buf a : Nat} {v : Byte} :
    s.putByte buf a v = some t ↔
      ∃ bytes, s.byteBufs[buf]? = some bytes ∧ a < bytes.length ∧
        t = s.withBytes (s.byteBufs.set buf (bytes.set a v)) := by
  unfold State.putByte
  split
  · rename_i bytes hb
    split
    · rename_i ha
      rw [Option.some.injEq, eq_comm]
      refine ⟨fun ht => ⟨bytes, hb, ha, ht⟩, ?_⟩
      rintro ⟨bytes', hb', -, ht⟩
      rw [hb] at hb'
      cases hb'
      exact ht
    · simp_all
  · simp_all

/-- All that a number write can do: where the index is in the buffer, that one element changes. -/
theorem State.putNum_eq_some {s t : State} {buf i : Nat} {v : Word64} :
    s.putNum buf i v = some t ↔
      ∃ nums, s.numBufs[buf]? = some nums ∧ i < nums.length ∧
        t = s.withNums (s.numBufs.set buf (nums.set i v)) := by
  unfold State.putNum
  split
  · rename_i nums hb
    split
    · rename_i ha
      rw [Option.some.injEq, eq_comm]
      refine ⟨fun ht => ⟨nums, hb, ha, ht⟩, ?_⟩
      rintro ⟨nums', hb', -, ht⟩
      rw [hb] at hb'
      cases hb'
      exact ht
    · simp_all
  · simp_all

/-- All that a slot write can do: where the slot is in the buffer, its two bytes change (R28). -/
theorem State.putSlot_eq_some {s t : State} {buf o : Nat} {data : Word64} :
    s.putSlot buf o data = some t ↔
      ∃ bytes, s.byteBufs[buf]? = some bytes ∧ o + 1 < bytes.length ∧
        t = s.withBytes (s.byteBufs.set buf
          ((bytes.set o (data.extractLsb' 8 8)).set (o + 1) (data.extractLsb' 0 8))) := by
  unfold State.putSlot
  split
  · rename_i bytes hb
    split
    · rename_i ha
      rw [Option.some.injEq, eq_comm]
      refine ⟨fun ht => ⟨bytes, hb, ha, ht⟩, ?_⟩
      rintro ⟨bytes', hb', -, ht⟩
      rw [hb] at hb'
      cases hb'
      exact ht
    · simp_all
  · simp_all

@[simp] theorem length_freshBytes (k n : Nat) : (freshBytes k n).length = n := by simp [freshBytes]

@[simp] theorem length_freshNums (k n : Nat) : (freshNums k n).length = n := by simp [freshNums]

/-- A host write of a byte buffer is done exactly when no unfinished call holds the buffer and the
access is inside it (R27, R28, R109). -/
theorem State.hostWriteBytes_eq_next {s t : State} {buf : Nat} {put : Option State} :
    s.hostWriteBytes buf put = .next t ↔ s.bytesHeld buf = false ∧ put = some t := by
  unfold State.hostWriteBytes
  cases s.bytesHeld buf <;> cases put <;> simp

/-- A host write of a number buffer is done exactly when no unfinished call holds the buffer and the
access is inside it (R27, R109). -/
theorem State.hostWriteNums_eq_next {s t : State} {buf : Nat} {put : Option State} :
    s.hostWriteNums buf put = .next t ↔ s.numsHeld buf = false ∧ put = some t := by
  unfold State.hostWriteNums
  cases s.numsHeld buf <;> cases put <;> simp

/-- A host read of a byte changes nothing but the count of draws (R27). -/
theorem State.hostByte_frame {s t : State} {buf a : Nat} {v : Byte}
    (h : s.hostByte buf a = some (v, t)) : ∃ n, t = s.drew n := by
  unfold State.hostByte at h
  split at h
  · split at h <;> simp only [Option.some.injEq, Prod.mk.injEq] at h
    · exact ⟨1, h.2.symm⟩
    · exact ⟨0, h.2.symm⟩
  · cases h

/-- A host read of a number changes nothing but the count of draws (R27). -/
theorem State.hostNum_frame {s t : State} {buf i : Nat} {v : Word64}
    (h : s.hostNum buf i = some (v, t)) : ∃ n, t = s.drew n := by
  unfold State.hostNum at h
  split at h
  · split at h <;> simp only [Option.some.injEq, Prod.mk.injEq] at h
    · exact ⟨1, h.2.symm⟩
    · exact ⟨0, h.2.symm⟩
  · cases h

end Sys2Proof.Machine
end

