-- ==== Sys2Proof/Laws/PerInstr.lean ====
section
/-! SUPPORT. Statements made for every instruction, one lemma for each constructor of Instr. -/

namespace Sys2Proof.Laws

open Sys2Proof.Machine

/-- The request word of an instruction has the operation number of R41, and every operand bit outside
the fields of R42 is 0 (R60). -/
def EncodedShape.Statement (i : Instr) : Prop :=
  (encode i).op = i.opNumber ∧ (encode i).opnd.toNat < 2 ^ operandBits i.opNumber

theorem EncodedShape.b64Enc (v : Uint6) : EncodedShape.Statement (.b64Enc v) :=
  ⟨op_mkRequest _ _, by
    have h := v.isLt
    simp only [encode, Instr.opNumber, Instr.operandField, operandBits, opnd_mkRequest,
      BitVec.toNat_setWidth]
    exact lt_of_le_of_lt (Nat.mod_le _ _) h⟩

theorem EncodedShape.b64Dec (b : Byte) : EncodedShape.Statement (.b64Dec b) :=
  ⟨op_mkRequest _ _, by
    have h := b.isLt
    simp only [encode, Instr.opNumber, Instr.operandField, operandBits, opnd_mkRequest,
      BitVec.toNat_setWidth]
    exact lt_of_le_of_lt (Nat.mod_le _ _) h⟩

theorem EncodedShape.u12Enc (v : Uint12) : EncodedShape.Statement (.u12Enc v) :=
  ⟨op_mkRequest _ _, by
    have h := v.isLt
    simp only [encode, Instr.opNumber, Instr.operandField, operandBits, opnd_mkRequest,
      BitVec.toNat_setWidth]
    exact lt_of_le_of_lt (Nat.mod_le _ _) h⟩

theorem EncodedShape.u12Dec (b0 b1 : Byte) : EncodedShape.Statement (.u12Dec b0 b1) :=
  ⟨op_mkRequest _ _, by
    have h := (b0 ++ b1).isLt
    simp only [encode, Instr.opNumber, Instr.operandField, operandBits, opnd_mkRequest,
      BitVec.toNat_setWidth]
    exact lt_of_le_of_lt (Nat.mod_le _ _) h⟩

theorem EncodedShape.f12Enc (x : Word64) : EncodedShape.Statement (.f12Enc x) :=
  ⟨op_mkRequest _ _, by
    simpa [encode, Instr.opNumber, Instr.operandField, operandBits] using x.isLt⟩

theorem EncodedShape.f12Dec (b0 b1 : Byte) : EncodedShape.Statement (.f12Dec b0 b1) :=
  ⟨op_mkRequest _ _, by
    have h := (b0 ++ b1).isLt
    simp only [encode, Instr.opNumber, Instr.operandField, operandBits, opnd_mkRequest,
      BitVec.toNat_setWidth]
    exact lt_of_le_of_lt (Nat.mod_le _ _) h⟩

theorem EncodedShape.f12DecRaw (w : Uint12) : EncodedShape.Statement (.f12DecRaw w) :=
  ⟨op_mkRequest _ _, by
    have h := w.isLt
    simp only [encode, Instr.opNumber, Instr.operandField, operandBits, opnd_mkRequest,
      BitVec.toNat_setWidth]
    exact lt_of_le_of_lt (Nat.mod_le _ _) h⟩

theorem EncodedShape.reserved : EncodedShape.Statement .reserved :=
  ⟨op_mkRequest _ _, by
    simp [encode, Instr.opNumber, Instr.operandField, operandBits]⟩

end Sys2Proof.Laws
end

