-- ==== Sys2Proof/Laws/Stream.lean ====
section
/-! SUPPORT. What each operation of the stream driver can do, said once. -/

namespace Sys2Proof.Machine

/-- All that a SKIP step can do (R99). -/
theorem skipStep_eq_next {c : Call} {s : State} {r : Call × State} :
    skipStep c s = .next r ↔
      ∃ b, s.byteAt c.input c.pos = some b ∧
        r = skipPiece (if c.atCrLf s then 2 else 1) (b == byteCR || b == byteLF) c s := by
  rw [skipStep, orRefuse_eq_next]
  exact exists_congr fun b => and_congr_right fun _ => by rw [Host.Outcome.next.injEq, eq_comm]

/-- All that completing a unit can do (R101). -/
theorem decodeUnit_eq_next {b0 b1 : Byte} {c : Call} {s : State} {r : Call × State} :
    decodeUnit b0 b1 c s = .next r ↔
      ∃ s1 s2, issue (encode (.f12Dec b0 b1)) s = .next s1 ∧
        s1.putNum c.output c.outCount (dataOf s1.rsp) = some s2 ∧
        r = ({ c with pending := none, outCount := c.outCount + 1 }, s2) := by
  rw [decodeUnit, andThen_eq_next]
  refine exists_congr fun s1 => ?_
  rw [orRefuse_eq_next, ← exists_and_left]
  exact exists_congr fun s2 => by rw [Host.Outcome.next.injEq, eq_comm (a := r)]

/-- All that an ENCODE step can do (R103). -/
theorem encodeStep_eq_next {c : Call} {s : State} {r : Call × State} :
    encodeStep c s = .next r ↔
      ∃ x s1 s2, s.numAt c.input c.pos = some x ∧ issue (encode (.f12Enc x)) s = .next s1 ∧
        s1.putSlot c.output (2 * c.pos) (dataOf s1.rsp) = some s2 ∧ r = (c.advance 1, s2) := by
  rw [encodeStep, orRefuse_eq_next]
  refine exists_congr fun x => ?_
  rw [andThen_eq_next, ← exists_and_left]
  refine exists_congr fun s1 => ?_
  rw [orRefuse_eq_next, ← exists_and_left, ← exists_and_left]
  exact exists_congr fun s2 => by rw [Host.Outcome.next.injEq, eq_comm (a := r)]

/-- All that a DATA step can do (R101): skip an invalid byte, hold the first symbol of a unit, or
complete a unit. -/
theorem dataStep_eq_next {c : Call} {s : State} {r : Call × State} :
    dataStep c s = .next r ↔
      ∃ b s1, s.byteAt c.input c.pos = some b ∧ issue (encode (.b64Dec b)) s = .next s1 ∧
        ((statusOf s1.rsp = Status.invalidSymbol.code ∧ r = (c.advance 1, s1)) ∨
         (statusOf s1.rsp ≠ Status.invalidSymbol.code ∧ c.pending = none ∧
           r = ({ c.advance 1 with pending := some b }, s1)) ∨
         (statusOf s1.rsp ≠ Status.invalidSymbol.code ∧ ∃ first, c.pending = some first ∧
           decodeUnit first b (c.advance 1) s1 = .next r)) := by
  unfold dataStep
  rw [orRefuse_eq_next]
  refine exists_congr fun b => ?_
  rw [andThen_eq_next]
  constructor
  · rintro ⟨hb, s1, hs, h⟩
    refine ⟨s1, hb, hs, ?_⟩
    split at h
    · simp_all
    · cases hp : c.pending <;> simp_all
  · rintro ⟨s1, hb, hs, h⟩
    refine ⟨hb, s1, hs, ?_⟩
    obtain ⟨h1, rfl⟩ | ⟨h1, hp, rfl⟩ | ⟨h1, first, hp, h2⟩ := h <;> simp_all

/-- A request that is answered changes the buses and the count of draws, and nothing else (R23). -/
theorem issue_frame {w : Request} {s t : State} (h : issue w s = .next t) :
    t = { s with req := w, rsp := t.rsp, draws := t.draws } := by
  obtain ⟨st, d, -, e⟩ | ⟨n, e⟩ | ⟨-, e⟩ := exec_cases (decodeRequest w) (s.present w) <;>
    rw [issue, serve, show (s.present w).req = w from rfl, e] at h <;> cases h <;> rfl

/-- A state has its own buffers. -/
theorem Call.OnlyOutputChanges_refl (c : Call) (s : State) : c.OnlyOutputChanges s s :=
  ⟨fun _ _ => rfl, fun _ _ => rfl⟩

/-- A DECODE call's output is a number buffer. -/
theorem Call.OnlyOutputChanges_of_setNums {c : Call} {s t : State} {l : List Word64}
    (hd : c.dir = .decode) (hb : t.byteBufs = s.byteBufs) (hn : t.numBufs = s.numBufs.set c.output l) :
    c.OnlyOutputChanges s t := by
  refine ⟨fun _ _ => by rw [hb], fun b h => ?_⟩
  have : c.output ≠ b := by
    rintro rfl; simp [hd] at h
  rw [hn, List.getElem?_set_ne this]

/-- An ENCODE call's output is a byte buffer. -/
theorem Call.OnlyOutputChanges_of_setBytes {c : Call} {s t : State} {l : List Byte}
    (hd : c.dir = .encode) (hb : t.byteBufs = s.byteBufs.set c.output l) (hn : t.numBufs = s.numBufs) :
    c.OnlyOutputChanges s t := by
  refine ⟨fun b h => ?_, fun _ _ => by rw [hn]⟩
  have : c.output ≠ b := by
    rintro rfl; simp [hd] at h
  rw [hb, List.getElem?_set_ne this]

/-- What every driver step does to its call and leaves of the state (R96): the call's parameters and
buffers stay, the counters advance together, and of the buffers only its own output is written. -/
structure DriverFrame (c d : Call) (s u : State) : Prop where
  call : d = { c with
    pos := d.pos, processed := c.processed + (d.pos - c.pos),
    sinceYield := c.sinceYield + (d.pos - c.pos), phase := d.phase, lines := d.lines,
    pending := d.pending, outCount := d.outCount }
  consumes : c.pos < d.pos
  inside : c.pos < c.total → d.pos ≤ c.total
  state : u = { s with
    req := u.req, rsp := u.rsp, draws := u.draws, byteBufs := u.byteBufs, numBufs := u.numBufs }
  buffers : c.OnlyOutputChanges s u

/-- The frame of a piece of the SKIP phase (R99). -/
theorem skipPiece_frame {n : Nat} {b : Bool} {c : Call} {s : State} (hd : c.dir = .decode)
    (hn : 0 < n) (hi : c.pos < c.total → c.pos + n ≤ c.total) :
    DriverFrame c (skipPiece n b c s).1 s (skipPiece n b c s).2 := by
  unfold skipPiece
  dsimp only
  generalize (if b = true then c.lines + 1 else c.lines) = l
  split
  · refine ⟨?_, ?_, hi, rfl, Call.OnlyOutputChanges_of_setNums hd rfl rfl⟩
    · simp [Call.advance]
    · simp [Call.advance, hn]
  · refine ⟨?_, ?_, hi, rfl, c.OnlyOutputChanges_refl _⟩
    · simp [Call.advance]
    · simp [Call.advance, hn]

/-- The frame of a driver step, whatever its direction and phase (R99, R101, R103). -/
theorem driverStep_frame {c d : Call} {s u : State} (h : driverStep c s = .next (d, u)) :
    DriverFrame c d s u := by
  unfold driverStep at h
  cases hd : c.dir with
  | encode =>
    rw [hd] at h
    obtain ⟨x, s1, s2, -, hi, hp, e⟩ := encodeStep_eq_next.mp h
    cases e
    obtain ⟨l, -, -, rfl⟩ := State.putSlot_eq_some.mp hp
    have hs := issue_frame hi
    refine ⟨by simp [Call.advance], by simp [Call.advance], fun h => h, by rw [hs]; rfl, ?_⟩
    exact Call.OnlyOutputChanges_of_setBytes hd (by rw [hs]; rfl) (by rw [hs]; rfl)
  | decode =>
    rw [hd] at h
    cases hph : c.phase with
    | skip =>
      rw [hph] at h
      obtain ⟨b, -, e⟩ := skipStep_eq_next.mp h
      obtain ⟨rfl, rfl⟩ := Prod.mk.injEq .. ▸ e
      apply skipPiece_frame hd
      · split <;> omega
      · intro hlt
        split
        · rename_i hc
          simp [Call.atCrLf] at hc
          omega
        · omega
    | data =>
      rw [hph] at h
      obtain ⟨b, s1, -, hi, hc⟩ := dataStep_eq_next.mp h
      have hs := issue_frame hi
      obtain ⟨-, e⟩ | ⟨-, -, e⟩ | ⟨-, first, -, hu⟩ := hc
      · cases e
        exact ⟨by simp [Call.advance], by simp [Call.advance], fun h => h, by rw [hs],
          by rw [hs]; exact c.OnlyOutputChanges_refl _⟩
      · cases e
        exact ⟨by simp [Call.advance], by simp [Call.advance], fun h => h, by rw [hs],
          by rw [hs]; exact c.OnlyOutputChanges_refl _⟩
      · obtain ⟨s2, s3, hi2, hp, e⟩ := decodeUnit_eq_next.mp hu
        cases e
        obtain ⟨l, -, -, rfl⟩ := State.putNum_eq_some.mp hp
        have hs2 := issue_frame hi2
        refine ⟨by simp [Call.advance], by simp [Call.advance], fun h => h, ?_, ?_⟩
        · rw [hs2, hs]; rfl
        · exact Call.OnlyOutputChanges_of_setNums hd (by rw [hs2, hs]; rfl) (by rw [hs2, hs]; rfl)

/-- When the driver suspends (R104). -/
theorem Call.suspends_eq_true {c : Call} :
    c.suspends = true ↔ c.pending = none ∧ c.suspendCount ≤ c.sinceYield := by
  simp [Call.suspends]

/-- Trimming at the end changes number buffers only, and of them only the call's output (R105). -/
theorem State.trimOutput_frame (c : Call) (s : State) :
    s.trimOutput c = { s with numBufs := (s.trimOutput c).numBufs } ∧
      c.OnlyOutputChanges s (s.trimOutput c) := by
  unfold State.trimOutput
  cases hd : c.dir
  · refine ⟨rfl, fun _ _ => rfl, fun b h => ?_⟩
    have : c.output ≠ b := by
      rintro rfl
      simp [hd] at h
    simp [this]
  · exact ⟨rfl, c.OnlyOutputChanges_refl _⟩

/-- All that one step of a `resume()` can do (R104 to R106): take a driver step of an unfinished call
that has input left, or end one that has none. -/
theorem resumeCall_eq_next {k : Nat} {rest : List HostStep} {s t : State} :
    resumeCall k rest s = .next t ↔
      ∃ c, s.calls[k]? = some c ∧ c.finished = false ∧
        ((c.pos < c.total ∧ ∃ c1 s1, driverStep c s = .next (c1, s1) ∧ t = afterStep k c1 rest s1) ∨
         (c.total ≤ c.pos ∧ t = endCall k c rest s)) := by
  unfold resumeCall
  rw [orRefuse_eq_next]
  refine exists_congr fun c => and_congr_right fun _ => ?_
  cases hf : c.finished
  · by_cases hp : c.pos < c.total
    · simp [hp, Nat.not_le_of_lt hp, andThen_eq_next, eq_comm (a := t)]
    · simp [hp, Nat.le_of_not_lt hp, eq_comm (a := t)]
  · simp

end Sys2Proof.Machine
end

