-- ==== Sys2Proof/Tests/Slice0.lean ====
section
/-! SUPPORT. The model's own tests. Expected values are the spec's: spec/95_test_vectors.md part 2 unless a
comment names another source. The witnesses at the end show, for each statement with hypotheses, a
state and operands that meet them together. -/

namespace Sys2Proof.Tests

open Sys2Proof.Machine

/-- The next state of an outcome, if it is one. -/
def nextOf (o : Host.Outcome State Fault Refusal) : Option State :=
  match o with
  | .next s => some s
  | _ => none

/-- The response bus after the request word is run as the first one after reset. -/
def responseTo (w : Nat) : Option Response :=
  (nextOf (step (State.reset.withFetchWord 72 w))).map State.rsp

/-- A small state: what the host has to do, its buffers and its calls. -/
def hostState (script : List HostStep) (byteBufs : List (List Byte)) (numBufs : List (List Word64))
    (calls : List Call) : State :=
  { State.reset with
    script := script, byteBufs := byteBufs, numBufs := numBufs, calls := calls, rsp := 0 }

/-! ## WellFormed: one check, and an ill-formed term that it refuses -/

theorem test_reserved_is_refused : ¬ Instr.reserved.WellFormed := by decide

theorem test_operation_is_well_formed : (Instr.f12Enc 0).WellFormed := by decide

/-! ## Decoding: each constructor by a word written out bit by bit from R40 to R42 -/

theorem test_decode_b64Enc :
    decode (0b000 * 2 ^ 64 + 0b111110) = .ok (.b64Enc 0b111110) := by decide

theorem test_decode_b64Dec :
    decode (0b001 * 2 ^ 64 + 0b00101101) = .ok (.b64Dec 0b00101101) := by decide

theorem test_decode_u12Enc :
    decode (0b010 * 2 ^ 64 + 0b010000000001) = .ok (.u12Enc 0b010000000001) := by decide

theorem test_decode_u12Dec :
    decode (0b011 * 2 ^ 64 + 0b01010001_01000001) = .ok (.u12Dec 0b01010001 0b01000001) := by decide

theorem test_decode_f12Enc :
    decode (0b100 * 2 ^ 64 + 0x3FF0000000000000) = .ok (.f12Enc 0x3FF0000000000000) := by decide

theorem test_decode_f12Dec :
    decode (0b101 * 2 ^ 64 + 0b01010001_01000001) = .ok (.f12Dec 0b01010001 0b01000001) := by decide

theorem test_decode_f12DecRaw :
    decode (0b110 * 2 ^ 64 + 0b010000000001) = .ok (.f12DecRaw 0b010000000001) := by decide

theorem test_decode_reserved : decode (0b111 * 2 ^ 64) = .ok .reserved := by decide

/-- Part 2.1, last row: ignored operand bits. -/
theorem test_decode_ignores_bits : decode 0x0FFFFFFFFFFFFFFC1 = .ok (.b64Enc 1) := by decide

/-- R40: a request has 67 bits. -/
theorem test_decode_refuses_wider : decode (2 ^ 67) = .error .widerThanRequest := by decide

/-! ## Each operation, by the spec's vectors -/

theorem test_b64Enc_63 : responseTo 0x0000000000000003F = some 0x0000000000000002F := by decide

theorem test_b64Enc_26 : responseTo 0x0000000000000001A = some 0x00000000000000061 := by decide

theorem test_b64Dec_underscore : responseTo 0x1000000000000005F = some 0x0000000000000003F := by
  decide

theorem test_b64Dec_equals_sign : responseTo 0x1000000000000003D = some 0x100000000000000FF := by
  decide

theorem test_u12Enc_order : responseTo 0x2ABCDEF0123456400 = some 0x00000000000005141 := by decide

theorem test_u12Dec_order : responseTo 0x3000000000000412F = some 0x0000000000000003F := by decide

/-- R67, R45: an invalid byte gives INVALID_SYMBOL and zeros above the 12 drawn bits. -/
theorem test_u12Dec_invalid (s : State) :
    exec (.u12Dec 0x3D 0x41) s = .next (s.respondDraw 12) ∧
      statusOf (s.respondDraw 12).rsp = 0b01 := ⟨rfl, by simp [Status.code]⟩

theorem test_f12Enc_minus_tenth : responseTo 0x4BFB999999999999A = some 0x0000000000B937554 := by
  decide

theorem test_f12Enc_minus_infinity : responseTo 0x4FFF0000000000000 = some 0x0000000000FFF2F2F := by
  decide

theorem test_f12Dec_symbols : responseTo 0x50000000000006742 = some 0x0BDF0800000000000 := by decide

/-- R92: an invalid byte gives INVALID_SYMBOL. -/
theorem test_f12Dec_invalid (s : State) :
    exec (.f12Dec 0x41 0x0A) s = .next (s.respondDraw 64) ∧
      statusOf (s.respondDraw 64).rsp = 0b01 := ⟨rfl, by simp [Status.code]⟩

theorem test_f12DecRaw_largest : responseTo 0x60000000000000FFF = some 0x0C1EF800000000000 := by
  decide

theorem test_f12DecRaw_zero_pattern : responseTo 0x60000000000000800 = some 0 := by decide

/-- Part 2.4: op 7 is the model's fault, and its mark is set. -/
theorem test_reserved_faults (s : State) :
    exec .reserved s = .fault (.illegalOp s.illegalOp) ∧ s.illegalOp.faulted = true := ⟨rfl, rfl⟩

/-- R19: the layout constants. -/
theorem test_layout_constants :
    mask 5 = 0x01F ∧ implicitBit = 0x020 ∧ maskAt 6 5 = 0x7E0 ∧ maskAt 1 11 = 0x800 ∧
      mask 6 = 0x03F ∧ minExponent = -32 ∧ maxExponent = 31 ∧
      signWidth + exponentWidth + fractionWidth = 12 := by decide

/-! ## The host's steps -/

/-- A DECODE call in its DATA phase on byte buffer 0, with its output in number buffer 0. -/
def dataCall (pos : Nat) (pending : Option Byte) (outCount sinceYield suspendCount total : Nat) :
    Call :=
  { Call.start .decode 0 total 0 0 suspendCount with
    pos := pos, processed := pos, pending := pending, outCount := outCount,
    sinceYield := sinceYield }

/-- R28, program P1: the first symbol goes to the lower address. -/
theorem test_slot_order :
    ((nextOf (step { hostState [.takePair 0 2] [[0, 0, 0, 0, 0, 0]] [] [] with
      rsp := 0x0000000000B937554 })).map State.byteBufs) =
      some [[0, 0, 0x75, 0x54, 0, 0]] := by decide

/-- Program P3, step 5: `D` completes the unit `CD`, whose value is 35 × 2^−33, and no yield. -/
theorem test_data_step_completes_unit :
    ((nextOf (step (hostState [.resume 0] [[0x43, 0x44, 0x45]] [[0]]
      [dataCall 1 (some 0x43) 0 1 3 3]))).map fun t => (t.numBufs, t.calls.map Call.returned)) =
      some ([[0x3E31800000000000]], [[]]) := by decide

/-- Part 2.7, `QAQgS/` with suspend count 1: no yield after the first symbol of a unit, one after its
second. -/
theorem test_yield_after_unit :
    ((nextOf (step (hostState [.resume 0] [[0x51, 0x41]] [[0]]
      [dataCall 1 (some 0x51) 0 1 1 2]))).map fun t => (t.script, t.calls.map Call.returned)) =
      some ([], [[.yielded 2 2]]) := by decide

/-- Program P3, step 3: CR-LF is one break of two bytes. -/
theorem test_skip_takes_crlf :
    ((nextOf (step (hostState [.resume 0] [[0x0D, 0x0A, 0x43]] [[]]
      [Call.start .decode 0 3 0 2 9]))).map fun t =>
        t.calls.map fun c => (c.processed, c.lines, c.phase)) =
      some [(2, 1, .skip)] := by decide

/-- Part 2.7, `QAQ`: the trailing symbol is dropped at Done and the buffer trimmed. -/
theorem test_trailing_symbol_dropped :
    ((nextOf (step (hostState [.resume 0] [[0x51, 0x41, 0x51]] [[0x3FF0000000000000, 7]]
      [dataCall 2 none 1 1 9 3]))).map fun t =>
        (t.numBufs, t.calls.map fun c => (c.pending, c.returned))) =
      some ([[0x3FF0000000000000]], [(none, [.done])]) := by decide

/-- R97: a streaming call with suspendCount = 0 is refused. -/
theorem test_suspend_zero_refused :
    step (hostState [.startDecode 0 0 0] [[0x41]] [] []) = .refused .suspendCountZero := rfl

/-! ## Witnesses: hypotheses of the statements are met -/

/-- A state in the middle of a unit, with one DECODE call to resume. -/
def resumable : State :=
  hostState [.resume 0] [[0x51, 0x41]] [[0]] [dataCall 1 (some 0x51) 0 1 1 2]

theorem witness_invariant : resumable.Inv := by
  refine ⟨rfl, ?_, List.pairwise_singleton _ _, ?_⟩
  · intro c hc _
    rw [List.mem_singleton.mp hc]
    refine ⟨rfl, by decide, by decide, rfl, trivial, ?_⟩
    refine ⟨⟨[0x51, 0x41], rfl, rfl⟩, [0], rfl, by decide, ?_⟩
    intro b hb
    cases hb
    decide
  · intro c hc
    rw [List.mem_singleton.mp hc]
    decide

/-- InvariantKeptByStep, UnfinishedCallsResume, DriverNeverDrawsInData and YieldsOnlyBetweenUnits. -/
theorem witness_resume :
    resumable.script = .resume 0 :: [] ∧
    resumable.calls[0]? = some (dataCall 1 (some 0x51) 0 1 1 2) ∧
    (dataCall 1 (some 0x51) 0 1 1 2).finished = false ∧
    (dataCall 1 (some 0x51) 0 1 1 2).phase = .data ∧
    ∃ t, step resumable = .next t ∧ t.calls[0]?.map Call.returned = some [.yielded 2 2] :=
  ⟨rfl, rfl, rfl, rfl, _, rfl, by decide⟩

/-- The same call with no yield due, so that the step ends it. -/
def ending : State :=
  hostState [.resume 0] [[0x51, 0x41]] [[0]] [dataCall 1 (some 0x51) 0 1 9 2]

theorem witness_ending_invariant : ending.Inv := by
  refine ⟨rfl, ?_, List.pairwise_singleton _ _, ?_⟩
  · intro c hc _
    rw [List.mem_singleton.mp hc]
    refine ⟨rfl, by decide, by decide, rfl, trivial, ?_⟩
    refine ⟨⟨[0x51, 0x41], rfl, rfl⟩, [0], rfl, by decide, ?_⟩
    intro b hb
    cases hb
    decide
  · intro c hc
    rw [List.mem_singleton.mp hc]
    decide

/-- DoneDeliversTheWholeOutput, DECODE. -/
theorem witness_done :
    ∃ t c', ending.Inv ∧ step ending = .next t ∧ t.calls[0]? = some c' ∧ c'.finished = true ∧
      c'.dir = .decode :=
  ⟨_, _, witness_ending_invariant, rfl, rfl, by decide, rfl⟩

/-- An ENCODE call of one number, the last one, with no yield due. -/
def encoding : State :=
  hostState [.resume 0] [[0, 0]] [[0x3FF0000000000000]] [Call.start .encode 0 1 0 0 9]

theorem witness_encoding_invariant : encoding.Inv := by
  refine ⟨rfl, ?_, List.pairwise_singleton _ _, ?_⟩
  · intro c hc _
    rw [List.mem_singleton.mp hc]
    exact ⟨rfl, by decide, by decide, rfl, trivial, ⟨_, rfl, rfl⟩, ⟨_, rfl, rfl⟩, rfl⟩
  · intro c hc
    rw [List.mem_singleton.mp hc]
    decide

/-- DoneDeliversTheWholeOutput, ENCODE: the number is 1, whose symbols are `QA` (part 2.5). -/
theorem witness_done_encode :
    ∃ t c', encoding.Inv ∧ step encoding = .next t ∧ t.calls[0]? = some c' ∧ c'.finished = true ∧
      c'.dir = .encode ∧ t.byteBufs = [[0x51, 0x41]] :=
  ⟨_, _, witness_encoding_invariant, rfl, rfl, by decide, rfl, by decide⟩

/-- YieldsOnlyBetweenUnits, UnfinishedCallsResume: a driver step after which the call yields
(`resumable`), ends (`ending`) or goes on, and a call that yielded at the end of its input. -/
theorem witness_returns :
    (∃ d u, driverStep (dataCall 1 (some 0x51) 0 1 1 2) resumable = .next (d, u)) ∧
    (∃ d u, driverStep (dataCall 1 (some 0x51) 0 1 9 2) ending = .next (d, u)) ∧
    ((nextOf (step (hostState [.resume 0] [[0x51, 0x41]] [[0]] [dataCall 0 none 0 0 1 2]))).map
      fun t => (t.script, t.calls.map Call.returned)) = some ([.resume 0], [[]]) ∧
    ((nextOf (step (hostState [.resume 0] [[0x51, 0x41]] [[5]]
      [{ dataCall 2 none 1 0 1 2 with returned := [.yielded 2 2] }]))).map
      fun t => (t.script, t.calls.map Call.returned)) = some ([], [[.done, .yielded 2 2]]) :=
  ⟨⟨_, _, rfl⟩, ⟨_, _, rfl⟩, by decide, by decide⟩

/-- OutputDoesNotDependOnChunks: the two states differ in their suspend counts only, and one resume
is enough for the one and two for the other. -/
theorem witness_chunks :
    State.SameButChunks ending { resumable with script := [.resume 0, .resume 0] } ∧
    (∃ s', runSteps 1 ending = .next s' ∧ s'.calls.map Call.finished = [true]) ∧
    ∃ t', runSteps 2 { resumable with script := [.resume 0, .resume 0] } = .next t' ∧
      t'.calls.map Call.finished = [true] :=
  ⟨⟨rfl, .cons ⟨rfl, rfl⟩ .nil⟩, ⟨_, rfl, by decide⟩, ⟨_, rfl, by decide⟩⟩

/-- ZeroPatternsDecodeToPlusZero: both clauses. -/
theorem witness_zero_patterns : isZeroPattern 0x000 ∧ isZeroPattern 0x800 := by
  unfold isZeroPattern
  decide

/-- DecodedValuesAreNormalAndDistinct, EncoderReachesEveryWord: a word that is no zero pattern. -/
theorem witness_nonzero_word : ¬ isZeroPattern 0x801 ∧ (0x801 : Uint12) ≠ 0x000 ∧
    (0x801 : Uint12) ≠ 0x800 := by
  unfold isZeroPattern
  decide

/-- EncoderRoundsTowardZero: a word with a real value, the least in magnitude. -/
theorem witness_finite_value : ∃ v, (classify 0x8000000000000001).value = some v := ⟨_, rfl⟩

/-- IgnoredBitsDoNotMatter: two operand fields that differ in ignored bits only (part 2.1). -/
theorem witness_ignored_bits :
    (∀ k, k < operandBits 0 → (0xFFFFFFFFFFFFFFC1 : Word64).getLsbD k = (1 : Word64).getLsbD k) ∧
    ∃ t, issue (mkRequest 0 0xFFFFFFFFFFFFFFC1) State.reset = .next t := ⟨by decide, _, rfl⟩

/-- IgnoredBitsDoNotMatter: two requests that draw (U12_DEC of `==`). -/
theorem witness_ignored_bits_draw :
    (∀ k, k < operandBits 3 → (0xFFFFFFFFFFFF3D3D : Word64).getLsbD k = (0x3D3D : Word64).getLsbD k) ∧
    (∃ t, issue (mkRequest 3 0xFFFFFFFFFFFF3D3D) State.reset = .next t ∧ t.draws = 2) ∧
    ∃ t, issue (mkRequest 3 0x3D3D) State.reset = .next t ∧ t.draws = 2 :=
  ⟨by decide, ⟨_, rfl, rfl⟩, ⟨_, rfl, rfl⟩⟩

/-- StepRunsTheDecodedRequest. -/
theorem witness_step_runs :
    (hostState [.request 0x3F] [] [] []).faulted = false ∧
    (hostState [.request 0x3F] [] [] []).script = .request 0x3F :: [] ∧
    decode (0x3F : Request).toNat = .ok (.b64Enc 0x3F) := ⟨rfl, rfl, by decide⟩

/-- PlacedWordRunsNext, at the top of the word's range. -/
theorem witness_placed_word :
    State.reset.faulted = false ∧ decodeTableWord 72 (2 ^ 67 - 1) = some .reserved :=
  ⟨rfl, by decide⟩

/-- ReservedOperationFaults: a marked state. -/
theorem witness_marked : State.reset.illegalOp.faulted = true := rfl

/-- EveryOperationCompletes, OperationsChangeOnlyTheResponse, ResponseDependsOnTheRequestAlone and
StatusIsOkOrInvalidSymbol: an operation that answers without a draw, and one that draws. -/
theorem witness_exec_next :
    (Instr.b64Dec 0x3D).WellFormed ∧
    (∃ t, exec (.b64Dec 0x3D) State.reset = .next t ∧ t.draws = State.reset.draws) ∧
    ∃ t, exec (.f12Dec 0x3D 0x3D) State.reset = .next t ∧ t.draws = State.reset.draws + 1 :=
  ⟨by decide, ⟨_, rfl, rfl⟩, ⟨_, rfl, rfl⟩⟩

/-- SlotWriteChangesTwoBytes: the last slot of a buffer, and the first that is outside it. -/
theorem witness_slot :
    (hostState [.takePair 0 0] [[1, 2]] [] []).bytesHeld 0 = false ∧
    (∃ t, step (hostState [.takePair 0 0] [[1, 2]] [] []) = .next t) ∧
    step (hostState [.takePair 0 1] [[1, 2]] [] []) = .refused .outsideBuffer := ⟨rfl, ⟨_, rfl⟩, rfl⟩

/-- MemWriteChangesOneByte: the last byte of a buffer, and the first address outside it. -/
theorem witness_mem_write :
    (hostState [.memWrite 0 1 9] [[1, 2]] [] []).bytesHeld 0 = false ∧
    (∃ t, step (hostState [.memWrite 0 1 9] [[1, 2]] [] []) = .next t) ∧
    step (hostState [.memWrite 0 2 9] [[1, 2]] [] []) = .refused .outsideBuffer :=
  ⟨rfl, ⟨_, rfl⟩, rfl⟩

/-- MemWriteChangesOneByte, of a response: the symbol that B64_ENC 1 answered (R33). -/
theorem witness_take_byte :
    ((nextOf (step { hostState [.takeByte 0 1] [[1, 2]] [] [] with rsp := 0x42 })).map
      State.byteBufs) = some [[1, 0x42]] ∧
    step (hostState [.takeByte 0 2] [[1, 2]] [] []) = .refused .outsideBuffer := ⟨by decide, rfl⟩

/-- TakeNumChangesOneElement: the last element of a buffer, and the first index outside it. -/
theorem witness_take_num :
    (hostState [.takeNum 0 0] [] [[5]] []).numsHeld 0 = false ∧
    (∃ t, step (hostState [.takeNum 0 0] [] [[5]] []) = .next t) ∧
    step (hostState [.takeNum 0 1] [] [[5]] []) = .refused .outsideBuffer := ⟨rfl, ⟨_, rfl⟩, rfl⟩

/-- TakeNumChangesOneElement, of a given word: the last element, and the first index outside. -/
theorem witness_num_write :
    ((nextOf (step (hostState [.numWrite 0 1 7] [] [[5, 6]] []))).map State.numBufs) =
      some [[5, 7]] ∧
    step (hostState [.numWrite 0 2 7] [] [[5, 6]] []) = .refused .outsideBuffer := ⟨by decide, rfl⟩

/-- SentByteIsDecoded: the last byte of a buffer, and the first address outside it. -/
theorem witness_send_byte :
    (hostState [.sendByte 0 0] [[0x41]] [] []).bytesFilling 0 = false ∧
    (hostState [.sendByte 0 0] [[0x41]] [] []).byteAt 0 0 = some 0x41 ∧
    (hostState [.sendByte 0 1] [[0x41]] [] []).byteAt 0 1 = none := ⟨rfl, rfl, rfl⟩

/-- SentPairIsDecoded: two bytes of a buffer, and a second address outside it. -/
theorem witness_send_pair :
    (hostState [.sendPair .f12Dec 0 0 1] [[0x51, 0x41]] [] []).bytesFilling 0 = false ∧
    (∃ t, step (hostState [.sendPair .f12Dec 0 0 1] [[0x51, 0x41]] [] []) = .next t) ∧
    step (hostState [.sendPair .u12Dec 0 1 2] [[0x51, 0x41]] [] []) = .refused .outsideBuffer :=
  ⟨rfl, ⟨_, rfl⟩, rfl⟩

/-- SentNumberIsEncoded: the last element of a buffer, and the first index outside it. -/
theorem witness_send_num :
    (hostState [.sendNum 0 0] [] [[5]] []).numsFilling 0 = false ∧
    (∃ t, step (hostState [.sendNum 0 0] [] [[5]] []) = .next t) ∧
    step (hostState [.sendNum 0 1] [] [[5]] []) = .refused .outsideBuffer := ⟨rfl, ⟨_, rfl⟩, rfl⟩

/-- SentByteIsDecoded, SentPairIsDecoded, SentNumberIsEncoded: the outputs of unfinished calls, whose
bytes and numbers the caller reads as draws (R109). -/
theorem witness_send_unfinished :
    encoding.byteAt 0 0 = some 0 ∧ encoding.byteAt 0 1 = some 0 ∧
    (∃ d ∈ encoding.calls, d.finished = false ∧ d.dir = .encode ∧ d.output = 0) ∧
    resumable.numAt 0 0 = some 0 ∧
    ∃ d ∈ resumable.calls, d.finished = false ∧ d.dir = .decode ∧ d.output = 0 := by decide

/-- TextIsJoined: a code at the edge of a byte and one above it (R98). -/
theorem witness_text :
    ((nextOf (step (hostState [.newText [[0x41], [0xFF, 0x100]]] [] [] []))).map State.byteBufs) =
      some [[0x41, 0xFF, 0xFF]] := by decide

/-- DecodeCallStarts: no line to skip, one line to skip, and suspendCount = 0. -/
theorem witness_decode_starts :
    (hostState [.startDecode 0 0 1] [[0x41]] [] []).bytesFilling 0 = false ∧
    (∃ t, step (hostState [.startDecode 0 0 1] [[0x41]] [] []) = .next t) ∧
    (∃ t, step (hostState [.startDecode 0 1 1] [[0x41]] [] []) = .next t) ∧
    step (hostState [.startDecode 0 1 0] [[0x41]] [] []) = .refused .suspendCountZero :=
  ⟨rfl, ⟨_, rfl⟩, ⟨_, rfl⟩, rfl⟩

/-- EncodeCallStarts: a call that starts, and suspendCount = 0. -/
theorem witness_encode_starts :
    (hostState [.startEncode 0 1] [] [[5]] []).numsFilling 0 = false ∧
    (∃ t, step (hostState [.startEncode 0 1] [] [[5]] []) = .next t) ∧
    step (hostState [.startEncode 0 0] [] [[5]] []) = .refused .suspendCountZero :=
  ⟨rfl, ⟨_, rfl⟩, rfl⟩

/-- SkipStepCountsLines: a CR, an LF and another byte, the break being the last one or not. -/
theorem witness_skip_step (skip : Nat) :
    (Call.start .decode 0 3 0 (skip + 1) 1).dir = .decode ∧
    (Call.start .decode 0 3 0 (skip + 1) 1).phase = .skip ∧
    (hostState [] [[0x0D, 0x0A, 0x41]] [[]] []).byteAt 0 0 = some 0x0D ∧
    (hostState [] [[0x0D, 0x0A, 0x41]] [[]] []).byteAt 0 1 = some 0x0A ∧
    (hostState [] [[0x0D, 0x0A, 0x41]] [[]] []).byteAt 0 2 = some 0x41 :=
  ⟨rfl, by simp [Call.start], rfl, rfl, rfl⟩

/-- DataStepDecodesUnits: an invalid byte and a first symbol, each with an output that is full, and a
second symbol at the output's last element. -/
theorem witness_data_step :
    (dataCall 0 none 0 0 1 1).phase = .data ∧ (dataCall 0 none 0 0 1 1).dir = .decode ∧
    (hostState [] [[0x0A]] [[]] []).byteAt 0 0 = some 0x0A ∧ decAt 0x0A = 255 ∧
    (∃ d u, driverStep (dataCall 0 none 0 0 1 1) (hostState [] [[0x0A]] [[]] []) = .next (d, u) ∧
      d = dataCall 1 none 0 1 1 1) ∧
    (hostState [] [[0x51]] [[]] []).byteAt 0 0 = some 0x51 ∧ decAt 0x51 ≠ 255 ∧
    (∃ d u, driverStep (dataCall 0 none 0 0 1 1) (hostState [] [[0x51]] [[]] []) = .next (d, u) ∧
      d = dataCall 1 (some 0x51) 0 1 1 1) ∧
    (dataCall 1 (some 0x51) 0 1 1 2).pending = some 0x51 ∧ resumable.byteAt 0 1 = some 0x41 ∧
    decAt 0x41 ≠ 255 ∧ resumable.numBufs[0]? = some [0] :=
  ⟨rfl, rfl, rfl, by decide, ⟨_, _, rfl, by decide⟩, rfl, by decide, ⟨_, _, rfl, by decide⟩, rfl,
    rfl, by decide, rfl⟩

/-- EncodeStepWritesSlot: the last number of an input, with a slot just large enough. -/
theorem witness_encode_step :
    (Call.start .encode 0 1 0 0 1).dir = .encode ∧
    (hostState [] [[0, 0]] [[5]] []).numAt 0 0 = some 5 ∧
    (hostState [] [[0, 0]] [[5]] []).byteBufs[0]? = some [0, 0] := by decide

/-- OtherStepsLeaveCalls: a buffer is made while a call is suspended. -/
theorem witness_other_step :
    ∃ t, step { resumable with script := [.newBytes []] } = .next t := ⟨_, rfl⟩

/-- SuspendedCallsAreNotWritten: the input, the output and the progress accumulator of a suspended
call. -/
theorem witness_held :
    step { resumable with script := [.memWrite 0 0 0] } = .refused .heldByCall ∧
    step { resumable with script := [.numWrite 0 0 0] } = .refused .heldByCall ∧
    step { resumable with script := [.writeProgress 0 0 0] } = .refused .heldByCall :=
  ⟨rfl, rfl, rfl⟩

end Sys2Proof.Tests
end

section
/-! SUPPORT. The value of each class of binary64 word, and the claim about them (spec/00_scope.md R11). -/

namespace Sys2Proof.Machine

section
variable {x : Word64}

/-- R11: a word whose biased exponent is all ones is NaN or an infinity of its sign. -/
theorem classify_of_special (hB : (biasedExponent x).toNat = 0x7FF) :
    classify x = if (trailing x).toNat = 0 then .infinite (signBit x) else .nan := if_pos hB

/-- R11: a word whose biased exponent is zero is a zero of its sign or a subnormal. -/
theorem classify_of_small (hB : (biasedExponent x).toNat = 0) :
    classify x =
      if (trailing x).toNat = 0 then .zero (signBit x)
      else .finite (signBit x) (trailing x).toNat (-1074) := by
  simp [classify, hB]

/-- R11: every other word is a normal number. -/
theorem classify_of_normal (hspecial : (biasedExponent x).toNat ≠ 0x7FF)
    (hB : (biasedExponent x).toNat ≠ 0) :
    classify x =
      .finite (signBit x) (2 ^ 52 + (trailing x).toNat) ((biasedExponent x).toNat - 1075) := by
  simp only [classify, if_neg hspecial, if_neg hB]

/-- A zero has the value that the subnormal form gives at `M = 0`, so one formula serves both. -/
theorem value_of_small (hB : (biasedExponent x).toNat = 0) :
    (classify x).value =
      some ((if signBit x then -1 else 1) * (((trailing x).toNat : ℚ) * 2 ^ (-1074 : ℤ))) := by
  rw [classify_of_small hB]
  split
  · next hM => simp [F64Class.value, hM]
  · rfl

/-- The model's integer significand at `B - 1075` is R11's `1 + M * 2^-52` at `B - 1023`. -/
theorem normal_scaling (M : ℕ) (B : ℤ) :
    (((2 ^ 52 + M : ℕ) : ℚ) * 2 ^ (B - 1075)) = (1 + (M : ℚ) * 2 ^ (-52 : ℤ)) * 2 ^ (B - 1023) := by
  have hexp : (2 : ℚ) ^ (B - 1023) = 2 ^ (52 : ℤ) * 2 ^ (B - 1075) := by
    rw [← zpow_add₀ two_ne_zero]
    congr 1
    omega
  have hcancel : (2 : ℚ) ^ (-52 : ℤ) * 2 ^ (52 : ℤ) = 1 := zpow_neg_mul_zpow_self 52 two_ne_zero
  rw [hexp]
  push_cast
  linear_combination (-(M : ℚ) * 2 ^ (B - 1075)) * hcancel

/-- R11: the real of a normal word, its sign by its significand in [1, 2) at the unbiased exponent. -/
theorem value_of_normal (hspecial : (biasedExponent x).toNat ≠ 0x7FF)
    (hB : (biasedExponent x).toNat ≠ 0) :
    (classify x).value =
      some ((if signBit x then -1 else 1) *
        ((1 + ((trailing x).toNat : ℚ) * 2 ^ (-52 : ℤ)) *
          2 ^ (((biasedExponent x).toNat : ℤ) - 1023))) := by
  rw [classify_of_normal hspecial hB, ← normal_scaling]
  rfl

end

/-- Settles O14, by the three ranges of the biased exponent. -/
theorem binary64ClassesAndValues : Obligations.Binary64ClassesAndValues := by
  intro x
  dsimp only
  split
  · next hB =>
    rw [classify_of_special hB]
    split <;> simp [*]
  · next hspecial =>
    split
    · next hB =>
      refine ⟨?_, value_of_small hB⟩
      rw [classify_of_small hB]
      split <;> simp [*]
    · next hB => exact value_of_normal hspecial hB

end Sys2Proof.Machine
end

section
/-! SUPPORT. A host write of one byte (spec/20_memory.md R26, R27 and R33). -/

namespace Sys2Proof.Machine

@[simp] theorem State.withScript_byteAt (s : State) (rest : List HostStep) (buf a : Nat) :
    (s.withScript rest).byteAt buf a = s.byteAt buf a := rfl

/-- A byte write outside the buffer has no state to answer (R27). -/
theorem State.putByte_eq_none {s : State} {buf a : Nat} {v : Byte} {bytes : List Byte}
    (hbytes : s.byteBufs[buf]? = some bytes) (ha : ¬ a < bytes.length) :
    s.putByte buf a v = none := by
  simp only [State.putByte, hbytes, if_neg ha]

/-- The byte that a write put is the one read back. -/
theorem State.byteAt_putByte_same {s t : State} {buf a : Nat} {v : Byte}
    (hput : s.putByte buf a v = some t) : t.byteAt buf a = some v := by
  obtain ⟨bytes, hbytes, ha, rfl⟩ := State.putByte_eq_some.1 hput
  obtain ⟨hbuf, -⟩ := List.getElem?_eq_some_iff.1 hbytes
  exact State.byteAt_eq_some.2 ⟨bytes.set a v, by simp [hbuf], by simp [ha]⟩

/-- A read of another buffer or of another address is what it was before the write. -/
theorem State.byteAt_putByte_other {s t : State} {buf a buf' a' : Nat} {v : Byte}
    (hput : s.putByte buf a v = some t) (hother : buf' ≠ buf ∨ a' ≠ a) :
    t.byteAt buf' a' = s.byteAt buf' a' := by
  obtain ⟨bytes, hbytes, -, rfl⟩ := State.putByte_eq_some.1 hput
  obtain ⟨hbuf, -⟩ := List.getElem?_eq_some_iff.1 hbytes
  by_cases hsame : buf' = buf
  · subst hsame
    have ha : a' ≠ a := hother.resolve_left (not_not_intro rfl)
    simp only [State.byteAt, State.withBytes_byteBufs, List.getElem?_set_self hbuf, hbytes,
      List.getElem?_set_ne ha.symm]
  · simp [State.byteAt, List.getElem?_set_ne (Ne.symm hsame)]

/-- A step of an unmarked state with something to do does the first thing on the host's list. -/
theorem step_of_script {s : State} {h : HostStep} {rest : List HostStep}
    (hfaulted : s.faulted = false) (hscript : s.script = h :: rest) :
    step s = hostStep h rest s := by
  simp [step, hostNext, hfaulted, hscript]

/-- A host write to a buffer that no unfinished call holds is refused only outside the buffer. -/
theorem State.hostWriteBytes_of_not_held {s : State} {buf : Nat} {put : Option State}
    (hheld : s.bytesHeld buf = false) :
    s.hostWriteBytes buf put = orRefuse .outsideBuffer put .next := by
  simp [State.hostWriteBytes, hheld]

/-- R33: a given byte and one taken from the response are written by the same access. -/
theorem hostStep_byteWrite {s : State} {h : HostStep} {buf a : Nat} {v : Byte}
    {rest : List HostStep}
    (hwrite : h = .memWrite buf a v ∨
      (h = .takeByte buf a ∧ v = (dataOf s.rsp).extractLsb' 0 8)) :
    hostStep h rest s =
      (s.withScript rest).hostWriteBytes buf ((s.withScript rest).putByte buf a v) := by
  obtain rfl | ⟨rfl, rfl⟩ := hwrite <;> rfl

/-- Settles O43, by the one access that both forms of the write share. -/
theorem memWriteChangesOneByte : Obligations.MemWriteChangesOneByte := by
  intro s h buf a v rest bytes hfaulted hscript hwrite hheld hbytes
  have hbytes' : (s.withScript rest).byteBufs[buf]? = some bytes := hbytes
  have hstep : step s = orRefuse .outsideBuffer ((s.withScript rest).putByte buf a v) .next := by
    rw [step_of_script hfaulted hscript, hostStep_byteWrite hwrite]
    exact State.hostWriteBytes_of_not_held hheld
  split
  · next ha =>
    have hput := State.putByte_eq_some (v := v).2 ⟨bytes, hbytes', ha, rfl⟩
    refine ⟨_, by rw [hstep, hput]; rfl, rfl, State.byteAt_putByte_same hput, ?_⟩
    intro buf' a' hother
    rw [State.byteAt_putByte_other hput hother, State.withScript_byteAt]
  · next ha => rw [hstep, State.putByte_eq_none hbytes' ha, orRefuse_none]

end Sys2Proof.Machine
end

section
/-! SUPPORT. What an operation does to the state (spec/10_state.md R15 and R23), how a request on the
host's list becomes that operation (R14 and R16), and reset (R25). -/

namespace Sys2Proof.Machine

/-! ## Operations -/

/-- The instruction alone, and not the state, says what is answered: one response without a draw, a
draw of one width, or the fault (R23). -/
theorem exec_shape (i : Instr) :
    (∃ st data, ∀ s, exec i s = .next (s.respond st data)) ∨
    (∃ width, ∀ s, exec i s = .next (s.respondDraw width)) ∨
    ∀ s, exec i s = .fault (.illegalOp s.illegalOp) := by
  cases i with
  | b64Enc v => exact .inl ⟨_, _, fun _ => rfl⟩
  | b64Dec b => exact .inl ⟨_, _, fun _ => rfl⟩
  | u12Enc v => exact .inl ⟨_, _, fun _ => rfl⟩
  | u12Dec b0 b1 =>
    simp only [exec, execU12Dec]
    cases pairValue b0 b1 with
    | some v => exact .inl ⟨_, _, fun _ => rfl⟩
    | none => exact .inr (.inl ⟨_, fun _ => rfl⟩)
  | f12Enc x => exact .inl ⟨_, _, fun _ => rfl⟩
  | f12Dec b0 b1 =>
    simp only [exec, execF12Dec]
    cases pairValue b0 b1 with
    | some w => exact .inl ⟨_, _, fun _ => rfl⟩
    | none => exact .inr (.inl ⟨_, fun _ => rfl⟩)
  | f12DecRaw w => exact .inl ⟨_, _, fun _ => rfl⟩
  | reserved => exact .inr (.inr fun _ => rfl)

/-- Settles O33: a response without a draw leaves the count of draws, a drawn one adds one to it. -/
theorem operationsChangeOnlyTheResponse : Obligations.OperationsChangeOnlyTheResponse := by
  intro i s t h
  obtain ⟨st, data, -, e⟩ | ⟨width, e⟩ | ⟨-, e⟩ := exec_cases i s
  · obtain rfl := Host.Outcome.next.inj (e.symm.trans h)
    exact ⟨rfl, le_rfl, Nat.le_succ _⟩
  · obtain rfl := Host.Outcome.next.inj (e.symm.trans h)
    exact ⟨rfl, Nat.le_succ _, le_rfl⟩
  · cases e.symm.trans h

/-- Settles O34: both states answer by the same clause of `exec_shape`, and a draw reads nothing of
its state but the count. -/
theorem responseDependsOnTheRequestAlone : Obligations.ResponseDependsOnTheRequestAlone := by
  intro i s s' t t' h h'
  obtain ⟨st, data, e⟩ | ⟨width, e⟩ | e := exec_shape i
  · obtain rfl := Host.Outcome.next.inj ((e s).symm.trans h)
    obtain rfl := Host.Outcome.next.inj ((e s').symm.trans h')
    exact ⟨iff_of_true rfl rfl, fun _ => rfl⟩
  · obtain rfl := Host.Outcome.next.inj ((e s).symm.trans h)
    obtain rfl := Host.Outcome.next.inj ((e s').symm.trans h')
    refine ⟨by simp, fun hdraws => ?_⟩
    have hsame : s.draws = s'.draws := hdraws.resolve_left (by simp)
    simp only [State.respondDraw_rsp, State.draw, hsame]
  · cases (e s).symm.trans h

/-! ## Requests on the host's list -/

/-- A pattern decodes when it fits a request, and then as that request (R40). -/
theorem decode_eq_ok {n : Nat} {i : Instr} :
    decode n = .ok i ↔ n < 2 ^ 67 ∧ decodeRequest (BitVec.ofNat 67 n) = i := by
  unfold decode
  split
  · next hfits => rw [Except.ok.injEq, and_iff_right hfits]
  · next hwide => exact iff_of_false nofun fun hi => hwide hi.1

/-- Reading a table word is decoding its low `nbits` bits. -/
theorem decodeTableWord_eq_some {nbits w : Nat} {i : Instr} :
    decodeTableWord nbits w = some i ↔ decode (w % 2 ^ nbits) = .ok i := by
  unfold decodeTableWord
  cases decode (w % 2 ^ nbits) <;> simp

/-- R14: a step with a request to issue puts it on the bus and serves it. -/
theorem step_of_request {s : State} {w : Request} {rest : List HostStep}
    (hfaulted : s.faulted = false) (hscript : s.script = .request w :: rest) :
    step s = exec (decodeRequest w) { s with req := w, script := rest } :=
  step_of_script hfaulted hscript

/-- Settles O36: a request of 67 bits is its own low 67 bits. -/
theorem stepRunsTheDecodedRequest : Obligations.StepRunsTheDecodedRequest := by
  intro s w rest i hfaulted hscript hdecode
  obtain ⟨-, hi⟩ := decode_eq_ok.1 hdecode
  rw [BitVec.ofNat_toNat, BitVec.setWidth_eq] at hi
  rw [step_of_request hfaulted hscript, hi]

/-- Settles O37: the placed word is the next request, and serving it gives the old list back. -/
theorem placedWordRunsNext : Obligations.PlacedWordRunsNext := by
  intro s nbits w i hfaulted hword
  obtain ⟨-, hi⟩ := decode_eq_ok.1 (decodeTableWord_eq_some.1 hword)
  have hplaced : (s.withFetchWord nbits w).script =
      .request (BitVec.ofNat 67 (w % 2 ^ nbits)) :: s.script := rfl
  have hunmarked : (s.withFetchWord nbits w).faulted = false := hfaulted
  rw [step_of_request hunmarked hplaced, hi]
  rfl

/-! ## Reset -/

@[simp] theorem State.reset_calls : State.reset.calls = [] := rfl

/-- Settles O39, field by field. -/
theorem resetState : Obligations.ResetState :=
  ⟨rfl, State.reset_calls, rfl, rfl, rfl, rfl⟩

/-- Settles O40: reset is unmarked, and with no call the clauses about calls have nothing to say. -/
theorem invariantAtReset : Obligations.InvariantAtReset where
  unmarked := rfl
  sound := by simp
  separate := by simp
  once := by simp

end Sys2Proof.Machine
end

section
/-! SUPPORT. A host write of a slot and of one number (spec/20_memory.md R26 to R28 and R33). -/

namespace Sys2Proof.Machine

/-! ## A slot (R28) -/

/-- A slot write is two byte writes, the first symbol's and then the second's (R28, R29). -/
theorem State.putByte_twice_of_putSlot {s t : State} {buf o : Nat} {data : Word64}
    (hput : s.putSlot buf o data = some t) :
    ∃ u, s.putByte buf o (data.extractLsb' 8 8) = some u ∧
      u.putByte buf (o + 1) (data.extractLsb' 0 8) = some t := by
  obtain ⟨bytes, hbytes, ho, rfl⟩ := State.putSlot_eq_some.1 hput
  obtain ⟨hbuf, -⟩ := List.getElem?_eq_some_iff.1 hbytes
  refine ⟨_, State.putByte_eq_some.2 ⟨bytes, hbytes, by omega, rfl⟩,
    State.putByte_eq_some.2 ⟨bytes.set o (data.extractLsb' 8 8), ?_, by simpa using ho, ?_⟩⟩
  · simp [hbuf]
  · simp [State.withBytes]

/-- A slot that is not whole in its buffer has no state to answer (R28). -/
theorem State.putSlot_eq_none {s : State} {buf o : Nat} {data : Word64} {bytes : List Byte}
    (hbytes : s.byteBufs[buf]? = some bytes) (ho : ¬ o + 1 < bytes.length) :
    s.putSlot buf o data = none := by
  simp only [State.putSlot, hbytes, if_neg ho]

/-- The first symbol of a slot reads back: the second byte write is at another address. -/
theorem State.byteAt_putSlot_first {s t : State} {buf o : Nat} {data : Word64}
    (hput : s.putSlot buf o data = some t) : t.byteAt buf o = some (data.extractLsb' 8 8) := by
  obtain ⟨u, hfirst, hsecond⟩ := State.putByte_twice_of_putSlot hput
  rw [State.byteAt_putByte_other hsecond (.inr (by omega)), State.byteAt_putByte_same hfirst]

/-- The second symbol of a slot reads back. -/
theorem State.byteAt_putSlot_second {s t : State} {buf o : Nat} {data : Word64}
    (hput : s.putSlot buf o data = some t) :
    t.byteAt buf (o + 1) = some (data.extractLsb' 0 8) := by
  obtain ⟨u, -, hsecond⟩ := State.putByte_twice_of_putSlot hput
  exact State.byteAt_putByte_same hsecond

/-- A read outside the slot is what it was before the write. -/
theorem State.byteAt_putSlot_other {s t : State} {buf o buf' a : Nat} {data : Word64}
    (hput : s.putSlot buf o data = some t) (hother : buf' ≠ buf ∨ (a ≠ o ∧ a ≠ o + 1)) :
    t.byteAt buf' a = s.byteAt buf' a := by
  obtain ⟨u, hfirst, hsecond⟩ := State.putByte_twice_of_putSlot hput
  calc t.byteAt buf' a
      _ = u.byteAt buf' a := State.byteAt_putByte_other hsecond (hother.imp_right And.right)
      _ = s.byteAt buf' a := State.byteAt_putByte_other hfirst (hother.imp_right And.left)

/-- Settles O42, by the slot write and what reads back after it. -/
theorem slotWriteChangesTwoBytes : Obligations.SlotWriteChangesTwoBytes := by
  intro s buf o rest bytes hfaulted hscript hheld hbytes
  have hbytes' : (s.withScript rest).byteBufs[buf]? = some bytes := hbytes
  have hstep : step s =
      orRefuse .outsideBuffer ((s.withScript rest).putSlot buf o (dataOf s.rsp)) .next := by
    rw [step_of_script hfaulted hscript]
    exact State.hostWriteBytes_of_not_held hheld
  split
  · next ho =>
    have hput := State.putSlot_eq_some (data := dataOf s.rsp).2 ⟨bytes, hbytes', ho, rfl⟩
    refine ⟨_, by rw [hstep, hput]; rfl, rfl, State.byteAt_putSlot_first hput,
      State.byteAt_putSlot_second hput, ?_⟩
    intro buf' a hother
    rw [State.byteAt_putSlot_other hput hother, State.withScript_byteAt]
  · next ho => rw [hstep, State.putSlot_eq_none hbytes' ho, orRefuse_none]

/-! ## A number (R26, R27) -/

@[simp] theorem State.withScript_numAt (s : State) (rest : List HostStep) (buf i : Nat) :
    (s.withScript rest).numAt buf i = s.numAt buf i := rfl

/-- A number write outside the buffer has no state to answer (R27). -/
theorem State.putNum_eq_none {s : State} {buf i : Nat} {v : Word64} {nums : List Word64}
    (hnums : s.numBufs[buf]? = some nums) (hi : ¬ i < nums.length) :
    s.putNum buf i v = none := by
  simp only [State.putNum, hnums, if_neg hi]

/-- The number that a write put is the one read back. -/
theorem State.numAt_putNum_same {s t : State} {buf i : Nat} {v : Word64}
    (hput : s.putNum buf i v = some t) : t.numAt buf i = some v := by
  obtain ⟨nums, hnums, hi, rfl⟩ := State.putNum_eq_some.1 hput
  obtain ⟨hbuf, -⟩ := List.getElem?_eq_some_iff.1 hnums
  exact State.numAt_eq_some.2 ⟨nums.set i v, by simp [hbuf], by simp [hi]⟩

/-- A read of another buffer or of another index is what it was before the write. -/
theorem State.numAt_putNum_other {s t : State} {buf i buf' i' : Nat} {v : Word64}
    (hput : s.putNum buf i v = some t) (hother : buf' ≠ buf ∨ i' ≠ i) :
    t.numAt buf' i' = s.numAt buf' i' := by
  obtain ⟨nums, hnums, -, rfl⟩ := State.putNum_eq_some.1 hput
  obtain ⟨hbuf, -⟩ := List.getElem?_eq_some_iff.1 hnums
  obtain hbuf' | ⟨rfl, hi⟩ : buf' ≠ buf ∨ buf' = buf ∧ i' ≠ i := by tauto
  · simp [State.numAt, List.getElem?_set_ne hbuf'.symm]
  · simp [State.numAt, List.getElem?_set_self hbuf, hnums, List.getElem?_set_ne hi.symm]

/-- A host write to a number buffer that no unfinished call holds is refused only outside it. -/
theorem State.hostWriteNums_of_not_held {s : State} {buf : Nat} {put : Option State}
    (hheld : s.numsHeld buf = false) :
    s.hostWriteNums buf put = orRefuse .outsideBuffer put .next := by
  simp [State.hostWriteNums, hheld]

/-- R33: a given number and one taken from the response are written by the same access. -/
theorem hostStep_numWrite {s : State} {h : HostStep} {buf i : Nat} {v : Word64}
    {rest : List HostStep}
    (hwrite : h = .numWrite buf i v ∨ (h = .takeNum buf i ∧ v = dataOf s.rsp)) :
    hostStep h rest s =
      (s.withScript rest).hostWriteNums buf ((s.withScript rest).putNum buf i v) := by
  obtain rfl | ⟨rfl, rfl⟩ := hwrite <;> rfl

/-- Settles O44, by the one access that both forms of the write share. -/
theorem takeNumChangesOneElement : Obligations.TakeNumChangesOneElement := by
  intro s h buf i v rest nums hfaulted hscript hwrite hheld hnums
  have hnums' : (s.withScript rest).numBufs[buf]? = some nums := hnums
  have hstep : step s = orRefuse .outsideBuffer ((s.withScript rest).putNum buf i v) .next := by
    rw [step_of_script hfaulted hscript, hostStep_numWrite hwrite]
    exact State.hostWriteNums_of_not_held hheld
  split
  · next hi =>
    have hput := State.putNum_eq_some (v := v).2 ⟨nums, hnums', hi, rfl⟩
    refine ⟨_, by rw [hstep, hput]; rfl, rfl, State.numAt_putNum_same hput, ?_⟩
    intro buf' i' hother
    rw [State.numAt_putNum_other hput hother, State.withScript_numAt]
  · next hi => rw [hstep, State.putNum_eq_none hnums' hi, orRefuse_none]

end Sys2Proof.Machine
end

section
/-! SUPPORT. A request whose operands the host reads from its buffers (spec/20_memory.md R27 and
R33; spec/48_host_stream_driver.md R109). -/

namespace Sys2Proof.Machine

/-! ## The request word of an instruction (R40 to R42) -/

/-- The low bits of an operand field are the value that was widened to fill it. -/
theorem extractLsb'_setWidth_self {n m : Nat} (v : BitVec n) (hle : n ≤ m) :
    (v.setWidth m).extractLsb' 0 n = v := by
  rw [BitVec.extractLsb'_setWidth_of_le (by omega), BitVec.extractLsb'_eq_self]

/-- The second symbol of a pair is read from the low byte of the operand field (R42). -/
theorem low_byte_of_pair (b0 b1 : Byte) :
    ((b0 ++ b1).setWidth 64).extractLsb' 0 8 = b1 := by
  rw [BitVec.extractLsb'_setWidth_of_le (by decide), BitVec.extractLsb'_append_eq_right]

/-- The first symbol of a pair is read from the byte above (R42). -/
theorem high_byte_of_pair (b0 b1 : Byte) :
    ((b0 ++ b1).setWidth 64).extractLsb' 8 8 = b0 := by
  rw [BitVec.extractLsb'_setWidth_of_le (by decide), BitVec.extractLsb'_append_eq_left]

/-- The block reads back from a request word the instruction that it encodes (R40 to R42). -/
theorem decodeRequest_encode (i : Instr) : decodeRequest (encode i) = i := by
  unfold decodeRequest
  rw [encode, op_mkRequest, opnd_mkRequest]
  cases i with
  | b64Enc v => exact congrArg Instr.b64Enc (extractLsb'_setWidth_self v (by decide))
  | b64Dec b => exact congrArg Instr.b64Dec (extractLsb'_setWidth_self b (by decide))
  | u12Enc v => exact congrArg Instr.u12Enc (extractLsb'_setWidth_self v (by decide))
  | u12Dec b0 b1 =>
    exact congrArg₂ Instr.u12Dec (high_byte_of_pair b0 b1) (low_byte_of_pair b0 b1)
  | f12Enc x => rfl
  | f12Dec b0 b1 =>
    exact congrArg₂ Instr.f12Dec (high_byte_of_pair b0 b1) (low_byte_of_pair b0 b1)
  | f12DecRaw w => exact congrArg Instr.f12DecRaw (extractLsb'_setWidth_self w (by decide))
  | reserved => rfl

/-- Issuing an instruction's request word runs the instruction with the word on the bus (R14). -/
theorem issue_encode (i : Instr) (s : State) :
    issue (encode i) s = exec i (s.present (encode i)) := by
  rw [issue, serve, State.present_req, decodeRequest_encode]

/-! ## Host reads (R27, R109) -/

section
variable {s : State} {buf a : Nat}

/-- A byte buffer is being filled exactly when it is the output of an unfinished ENCODE call. -/
theorem State.bytesFilling_eq_true :
    s.bytesFilling buf = true ↔
      ∃ d ∈ s.calls, d.finished = false ∧ d.dir = .encode ∧ d.output = buf := by
  simp [State.bytesFilling, Call.fillsBytes, and_assoc]

/-- A number buffer is being filled exactly when it is the output of an unfinished DECODE call. -/
theorem State.numsFilling_eq_true :
    s.numsFilling buf = true ↔
      ∃ d ∈ s.calls, d.finished = false ∧ d.dir = .decode ∧ d.output = buf := by
  simp [State.numsFilling, Call.fillsNums, and_assoc]

/-- A host read of a byte fails exactly outside the buffer (R27). -/
theorem State.hostByte_eq_none : s.hostByte buf a = none ↔ s.byteAt buf a = none := by
  unfold State.hostByte
  cases s.byteAt buf a <;> cases s.bytesFilling buf <;> simp

/-- A host read of a number fails exactly outside the buffer (R27). -/
theorem State.hostNum_eq_none : s.hostNum buf a = none ↔ s.numAt buf a = none := by
  unfold State.hostNum
  cases s.numAt buf a <;> cases s.numsFilling buf <;> simp

/-- A byte inside the output of an unfinished call reads as the next draw (R109). -/
theorem State.hostByte_of_filling {b : Byte} (hfilling : s.bytesFilling buf = true)
    (hbyte : s.byteAt buf a = some b) : s.hostByte buf a = some (s.draw 8, s.drew 1) := by
  simp only [State.hostByte, hbyte, if_pos hfilling]

/-- A byte of any other buffer reads as what the buffer has (R27). -/
theorem State.hostByte_of_not_filling {b : Byte} (hfilling : ¬ s.bytesFilling buf = true)
    (hbyte : s.byteAt buf a = some b) : s.hostByte buf a = some (b, s) := by
  simp only [State.hostByte, hbyte, if_neg hfilling]

/-- A number inside the output of an unfinished call reads as the next draw (R109). -/
theorem State.hostNum_of_filling {x : Word64} (hfilling : s.numsFilling buf = true)
    (hnum : s.numAt buf a = some x) : s.hostNum buf a = some (s.draw 64, s.drew 1) := by
  simp only [State.hostNum, hnum, if_pos hfilling]

/-- A number of any other buffer reads as what the buffer has (R27). -/
theorem State.hostNum_of_not_filling {x : Word64} (hfilling : ¬ s.numsFilling buf = true)
    (hnum : s.numAt buf a = some x) : s.hostNum buf a = some (x, s) := by
  simp only [State.hostNum, hnum, if_neg hfilling]

/-- Of two reads the second is refused outside its buffer, whatever the first one was: a read leaves
the buffers as they are. -/
theorem second_read_outside_refused {a1 : Nat}
    {f : Byte × State → Byte × State → Host.Outcome State Fault Refusal}
    (houtside : s.byteAt buf a1 = none) :
    (orRefuse .outsideBuffer (s.hostByte buf a) fun r0 =>
      orRefuse .outsideBuffer (r0.2.hostByte buf a1) (f r0)) = .refused .outsideBuffer := by
  cases hread : s.hostByte buf a with
  | none => rfl
  | some r0 =>
    obtain ⟨n, hn⟩ : ∃ n, r0.2 = s.drew n := State.hostByte_frame hread
    have houtside' : r0.2.byteAt buf a1 = none := by rw [hn]; exact houtside
    rw [orRefuse_some, State.hostByte_eq_none.2 houtside', orRefuse_none]

end

/-! ## What the host sends (R33) -/

section
variable {s : State} {rest : List HostStep} {buf : Nat}

/-- R33, row B64_DEC: one host read, then the operation on what it read. -/
theorem step_of_sendByte {a : Nat} (hfaulted : s.faulted = false)
    (hscript : s.script = .sendByte buf a :: rest) :
    step s = orRefuse .outsideBuffer ((s.withScript rest).hostByte buf a) fun r =>
      exec (.b64Dec r.1) (r.2.present (encode (.b64Dec r.1))) := by
  simp only [step_of_script hfaulted hscript, hostStep, issue_encode]

/-- R33, rows U12_DEC and F12_DEC: two host reads in order, then the operation on what they read. -/
theorem step_of_sendPair {op : PairOp} {a0 a1 : Nat} (hfaulted : s.faulted = false)
    (hscript : s.script = .sendPair op buf a0 a1 :: rest) :
    step s = orRefuse .outsideBuffer ((s.withScript rest).hostByte buf a0) fun r0 =>
      orRefuse .outsideBuffer (r0.2.hostByte buf a1) fun r1 =>
        exec (op.instr r0.1 r1.1) (r1.2.present (encode (op.instr r0.1 r1.1))) := by
  simp only [step_of_script hfaulted hscript, hostStep, issue_encode]

/-- R33, row F12_ENC: one host read, then the operation on what it read. -/
theorem step_of_sendNum {i : Nat} (hfaulted : s.faulted = false)
    (hscript : s.script = .sendNum buf i :: rest) :
    step s = orRefuse .outsideBuffer ((s.withScript rest).hostNum buf i) fun r =>
      exec (.f12Enc r.1) (r.2.present (encode (.f12Enc r.1))) := by
  simp only [step_of_script hfaulted hscript, hostStep, issue_encode]

end

/-- Settles O45, by the two readings of a byte: a draw, or what the buffer has. -/
theorem sentByteIsDecoded : Obligations.SentByteIsDecoded := by
  intro s buf a rest hfaulted hscript
  rw [step_of_sendByte hfaulted hscript]
  split
  · next b hbyte =>
    rw [← State.withScript_byteAt s rest] at hbyte
    split
    · next hfilling =>
      have hfilling' := State.bytesFilling_eq_true (s := s.withScript rest).2 hfilling
      rw [State.hostByte_of_filling hfilling' hbyte]
      rfl
    · next hfree =>
      have hfree' := mt (State.bytesFilling_eq_true (s := s.withScript rest)).1 hfree
      rw [State.hostByte_of_not_filling hfree' hbyte]
      rfl
  · next houtside =>
    rw [← State.withScript_byteAt s rest] at houtside
    rw [State.hostByte_eq_none.2 houtside, orRefuse_none]

/-- Settles O46: the first read leaves the buffers and the calls as they are, so the second is of
the same kind, one draw later where the first was a draw. -/
theorem sentPairIsDecoded : Obligations.SentPairIsDecoded := by
  intro s buf a0 a1 rest op hfaulted hscript
  rw [step_of_sendPair hfaulted hscript, ← State.withScript_byteAt s rest buf a0,
    ← State.withScript_byteAt s rest buf a1]
  cases hbyte0 : (s.withScript rest).byteAt buf a0 with
  | none => rw [State.hostByte_eq_none.2 hbyte0, orRefuse_none]
  | some b0 =>
    cases hbyte1 : (s.withScript rest).byteAt buf a1 with
    | none => exact second_read_outside_refused hbyte1
    | some b1 =>
      dsimp only
      split
      · next hfilling =>
        have hfilling' := State.bytesFilling_eq_true (s := s.withScript rest).2 hfilling
        rw [State.hostByte_of_filling hfilling' hbyte0, orRefuse_some,
          State.hostByte_of_filling (s := (s.withScript rest).drew 1) hfilling' hbyte1]
        rfl
      · next hfree =>
        have hfree' := mt (State.bytesFilling_eq_true (s := s.withScript rest)).1 hfree
        rw [State.hostByte_of_not_filling hfree' hbyte0, orRefuse_some,
          State.hostByte_of_not_filling hfree' hbyte1]
        rfl

/-- Settles O47, by the two readings of a number: a draw, or what the buffer has. -/
theorem sentNumberIsEncoded : Obligations.SentNumberIsEncoded := by
  intro s buf i rest hfaulted hscript
  rw [step_of_sendNum hfaulted hscript]
  split
  · next x hnum =>
    rw [← State.withScript_numAt s rest] at hnum
    split
    · next hfilling =>
      have hfilling' := State.numsFilling_eq_true (s := s.withScript rest).2 hfilling
      rw [State.hostNum_of_filling hfilling' hnum]
      rfl
    · next hfree =>
      have hfree' := mt (State.numsFilling_eq_true (s := s.withScript rest)).1 hfree
      rw [State.hostNum_of_not_filling hfree' hnum]
      rfl
  · next houtside =>
    rw [← State.withScript_numAt s rest] at houtside
    rw [State.hostNum_eq_none.2 houtside, orRefuse_none]

end Sys2Proof.Machine
end

section
/-! SUPPORT. What the two lookup tables hold (spec/30_encoding.md R47 to R51). -/

namespace Sys2Proof.Machine

/-- Settles O1, entry by entry. -/
theorem encodeTableIsTheAlphabet : Obligations.EncodeTableIsTheAlphabet := by
  unfold Obligations.EncodeTableIsTheAlphabet
  decide

/-- Settles O2, entry by entry. -/
theorem decodeTableByRanges : Obligations.DecodeTableByRanges := by
  unfold Obligations.DecodeTableByRanges
  decide

/-- R50: every range of R49 lies below 0x80. -/
theorem decAt_of_high {b : Byte} (hb : 0x80 ≤ b.toNat) : decAt b = 255 := by
  refine BitVec.eq_of_toNat_eq ?_
  rw [decodeTableByRanges b, if_neg (by omega), if_neg (by omega), if_neg (by omega),
    if_neg (by omega), if_neg (by omega)]
  rfl

/-- R50: every range of R49 holds 6-bit values only. -/
theorem decAt_invalid_or_uint6 (b : Byte) : decAt b = 255 ∨ (decAt b).toNat ≤ 63 := by
  rw [BitVec.toNat_eq, decodeTableByRanges b]
  split_ifs <;> simp <;> omega

/-- R50: below 0x80, all bytes but the 66 of R49 are INVALID. -/
theorem count_invalid_low :
    ((List.range 128).filter fun n => decAt (BitVec.ofNat 8 n) = 255).length = 62 := by decide

/-- R50: from 0x80 on, all bytes are INVALID. -/
theorem count_invalid_high :
    (((List.range 128).map (128 + ·)).filter fun n => decAt (BitVec.ofNat 8 n) = 255).length =
      128 := by
  rw [List.filter_eq_self.2, List.length_map, List.length_range]
  simp only [List.mem_map, List.mem_range, decide_eq_true_eq]
  rintro n ⟨k, hk, rfl⟩
  refine decAt_of_high ?_
  rw [BitVec.toNat_ofNat]
  omega

/-- Settles O3: the count is the sum over the two halves of the table. -/
theorem invalidBytesAre190 : Obligations.InvalidBytesAre190 := by
  refine ⟨?_, rfl, rfl, rfl, rfl, fun _ => decAt_of_high, decAt_invalid_or_uint6⟩
  rw [show 256 = 128 + 128 from rfl, List.range_add, List.filter_append, List.length_append,
    count_invalid_low, count_invalid_high]

/-- Settles O4, entry by entry of the encode table. -/
theorem decodeTableInvertsEncodeTable : Obligations.DecodeTableInvertsEncodeTable := by
  unfold Obligations.DecodeTableInvertsEncodeTable
  decide

end Sys2Proof.Machine
end

section
/-! SUPPORT. The request word (spec/30_encoding.md R40 to R43 and R60) and the status of a response
(R46). -/

namespace Sys2Proof.Machine

/-! ## Request words -/

/-- Settles O28: a request word is its own low 67 bits, and `decodeRequest_encode` reads them. -/
theorem decodeOfEncode : Obligations.DecodeOfEncode := by
  intro i
  refine decode_eq_ok.2 ⟨(encode i).isLt, ?_⟩
  rw [BitVec.ofNat_toNat, BitVec.setWidth_eq, decodeRequest_encode]

/-- Settles O30: the seven words of R60 are encodings; the word of op 7 has operand bits set, which
no encoding has. -/
theorem exampleWordsDecode : Obligations.ExampleWordsDecode :=
  ⟨decodeOfEncode (.b64Enc 62), decodeOfEncode (.b64Dec 0x2D), decodeOfEncode (.u12Enc 0xFFF),
    decodeOfEncode (.u12Dec 0x51 0x41), decodeOfEncode (.f12Enc 0x3FF0000000000000),
    decodeOfEncode (.f12Dec 0x51 0x41), decodeOfEncode (.f12DecRaw 0x400),
    decode_eq_ok.2 ⟨by decide, rfl⟩⟩

/-- Settles O38, line by line. -/
theorem assemblerGivesExampleWords : Obligations.AssemblerGivesExampleWords :=
  ⟨rfl, rfl, rfl, rfl, rfl, rfl, rfl⟩

/-- A field that lies in the low `bits` bits reads no other bit. -/
theorem extractLsb'_congr {n start len bits : Nat} {a b : BitVec n}
    (h : ∀ k, k < bits → a.getLsbD k = b.getLsbD k) (hle : start + len ≤ bits) :
    a.extractLsb' start len = b.extractLsb' start len := by
  ext k hk
  rw [BitVec.getElem_extractLsb', BitVec.getElem_extractLsb', h _ (by omega)]

/-- The eight rows of R41. -/
theorem op_cases (op : BitVec 3) :
    op = 0 ∨ op = 1 ∨ op = 2 ∨ op = 3 ∨ op = 4 ∨ op = 5 ∨ op = 6 ∨ op = 7 := by
  revert op
  decide

/-- R43: each row of the decoder reads fields in the low `operandBits` bits only. -/
theorem decodeRequest_congr {op : BitVec 3} {a b : Word64}
    (h : ∀ k, k < operandBits op → a.getLsbD k = b.getLsbD k) :
    decodeRequest (mkRequest op a) = decodeRequest (mkRequest op b) := by
  have hfield : ∀ start len, start + len ≤ operandBits op →
      a.extractLsb' start len = b.extractLsb' start len := fun _ _ => extractLsb'_congr h
  simp only [decodeRequest, op_mkRequest, opnd_mkRequest]
  obtain rfl | rfl | rfl | rfl | rfl | rfl | rfl | rfl := op_cases op
  · exact congrArg Instr.b64Enc (hfield 0 6 (by decide))
  · exact congrArg Instr.b64Dec (hfield 0 8 (by decide))
  · exact congrArg Instr.u12Enc (hfield 0 12 (by decide))
  · exact congrArg₂ Instr.u12Dec (hfield 8 8 (by decide)) (hfield 0 8 (by decide))
  · exact congrArg Instr.f12Enc (BitVec.eq_of_getLsbD_eq h)
  · exact congrArg₂ Instr.f12Dec (hfield 8 8 (by decide)) (hfield 0 8 (by decide))
  · exact congrArg Instr.f12DecRaw (hfield 0 12 (by decide))
  · rfl

/-- Settles O29: the two requests are one instruction, which answers from the count of draws alone,
and driving the request bus leaves that count. -/
theorem ignoredBitsDoNotMatter : Obligations.IgnoredBitsDoNotMatter := by
  intro op a b h
  have hsame := decodeRequest_congr h
  refine ⟨hsame, fun s t u ht hu => ?_⟩
  rw [issue, serve, State.present_req] at ht hu
  rw [hsame] at ht
  exact (responseDependsOnTheRequestAlone _ _ _ _ _ ht hu).2 (.inr rfl)

/-! ## The status of a response -/

section
variable {s t : State}

/-- A response without a draw has the status it was given. -/
theorem statusOf_of_respond {st : Status} {data : Word64}
    (h : Host.Outcome.next (s.respond st data) = (.next t : Host.Outcome State Fault Refusal)) :
    statusOf t.rsp = st.code := by
  obtain rfl := Host.Outcome.next.inj h
  exact statusOf_mkResponse st data

/-- A drawn response has the status INVALID_SYMBOL (R45). -/
theorem statusOf_of_respondDraw {width : Nat}
    (h : Host.Outcome.next (s.respondDraw width) = (.next t : Host.Outcome State Fault Refusal)) :
    statusOf t.rsp = 0b01 := by
  obtain rfl := Host.Outcome.next.inj h
  exact statusOf_mkResponse _ _

end

/-- R63: the status of a table entry is OK, or INVALID_SYMBOL for 255. -/
theorem statusOfValue_code (d : Byte) :
    (statusOfValue d).code = 0b00 ∨ (statusOfValue d).code = 0b01 ∧ d = 255 := by
  unfold statusOfValue
  split
  · next h => exact .inr ⟨rfl, h⟩
  · exact .inl rfl

/-- Settles O35, by the instruction: a decoder of two bytes draws only for a pair with no value. -/
theorem statusIsOkOrInvalidSymbol : Obligations.StatusIsOkOrInvalidSymbol := by
  intro i s t h
  cases i with
  | b64Enc v => exact .inl (statusOf_of_respond h)
  | b64Dec b =>
    rw [statusOf_of_respond h]
    exact statusOfValue_code (decAt b)
  | u12Enc v => exact .inl (statusOf_of_respond h)
  | u12Dec b0 b1 =>
    simp only [exec, execU12Dec] at h
    split at h
    · exact .inl (statusOf_of_respond h)
    · next hpair => exact .inr ⟨statusOf_of_respondDraw h, pairValue_eq_none.1 hpair⟩
  | f12Enc x => exact .inl (statusOf_of_respond h)
  | f12Dec b0 b1 =>
    simp only [exec, execF12Dec] at h
    split at h
    · exact .inl (statusOf_of_respond h)
    · next hpair => exact .inr ⟨statusOf_of_respondDraw h, pairValue_eq_none.1 hpair⟩
  | f12DecRaw w => exact .inl (statusOf_of_respond h)
  | reserved => cases h

end Sys2Proof.Machine
end

section
/-! SUPPORT. The Float12 encoder on the values of the decoder (spec/30_encoding.md R53 to R59;
spec/42_float12_encoder.md R74 to R80; spec/43_float12_decoder.md R86). -/

namespace Sys2Proof.Machine

/-! ## Fields -/

/-- The sign bit is the field of width 1 above the stored exponent. -/
theorem ofBool_f12Sign (w : Uint12) : BitVec.ofBool (f12Sign w) = w.extractLsb' 11 1 := by
  ext i hi
  obtain rfl : i = 0 := by omega
  rw [BitVec.getElem_extractLsb', BitVec.getElem_ofBool]
  rfl

/-- R53: a Float12 word is its three fields. -/
theorem f12Pack_fields (w : Uint12) : f12Pack (f12Sign w) (f12Stored w) (f12Fraction w) = w := by
  rw [f12Pack, ofBool_f12Sign, f12Stored, f12Fraction,
    BitVec.extractLsb'_append_extractLsb'_eq_extractLsb' (show 11 = 5 + 6 from rfl),
    BitVec.extractLsb'_append_extractLsb'_eq_extractLsb' (show 5 = 0 + 5 from rfl)]
  exact BitVec.extractLsb'_eq_self

/-- R58: the two zero patterns differ in the sign only. -/
theorem eq_of_isZeroPattern {w : Uint12} (h : isZeroPattern w) : w = 0x000 ∨ w = 0x800 := by
  obtain ⟨hstored, hfraction⟩ := h
  rw [← f12Pack_fields w, hstored, hfraction]
  cases f12Sign w with
  | false => exact .inl rfl
  | true => exact .inr rfl

section
variable (neg : Bool) (B : BitVec 11) (M : BitVec 52)

/-- R11: the sign of a binary64 word put together from its fields. -/
@[simp] theorem signBit_append : signBit (BitVec.ofBool neg ++ B ++ M) = neg := by
  rw [signBit, BitVec.getLsbD_append, BitVec.getLsbD_append]
  simp

/-- R11: the biased exponent of a binary64 word put together from its fields. -/
@[simp] theorem biasedExponent_append : biasedExponent (BitVec.ofBool neg ++ B ++ M) = B := by
  rw [biasedExponent, BitVec.extractLsb'_append_eq_of_le le_rfl]
  exact BitVec.extractLsb'_append_eq_right

/-- R11: the trailing significand of a binary64 word put together from its fields. -/
@[simp] theorem trailing_append : trailing (BitVec.ofBool neg ++ B ++ M) = M := by
  rw [trailing, BitVec.extractLsb'_append_eq_right]

end

/-! ## The decoder's value -/

/-- A significand with its leading 1 at bit `k`. -/
theorem log2_two_pow_add {f k : Nat} (hf : f < 2 ^ k) : (2 ^ k + f).log2 = k := by
  rw [Nat.log2_eq_iff (by positivity), pow_succ]
  omega

/-- R55: the implicit bit lies above the fraction, so it is added. -/
theorem f12Significand_eq (w : Uint12) : f12Significand w = 2 ^ 5 + (f12Fraction w).toNat := by
  have hadd := Nat.two_pow_add_eq_or_of_lt (i := 5) (f12Fraction w).isLt 1
  rw [f12Significand, Nat.lor_comm]
  exact hadd.symm

section
variable {w : Uint12}

/-- R86: the fields of the decoder's value, off the zero patterns. The bias goes from 32 to 1023 and
the fraction to the top of the trailing significand. -/
theorem f12Value_of_not_zero (h : ¬ isZeroPattern w) :
    f12Value w = BitVec.ofBool (f12Sign w) ++ BitVec.ofNat 11 ((f12Stored w).toNat + 991) ++
      BitVec.ofNat 52 ((f12Fraction w).toNat * 2 ^ 47) := by
  have hlog : (2 ^ 5 + (f12Fraction w).toNat).log2 = 5 := log2_two_pow_add (f12Fraction w).isLt
  have hbiased : (floorLog2 (2 ^ 5 + (f12Fraction w).toNat) (f12Scale w) + 1023).toNat =
      (f12Stored w).toNat + 991 := by
    rw [floorLog2, hlog]
    simp only [f12Scale, exponentOffset, fractionWidth]
    omega
  unfold isZeroPattern at h
  simp only [f12Value, if_neg h, f12Significand_eq, f64OfExact]
  rw [hbiased, hlog, Nat.add_sub_cancel_left]

/-- R88: off the zero patterns the decoder's value is a normal number. -/
theorem classify_f12Value (h : ¬ isZeroPattern w) :
    classify (f12Value w) =
      .finite (f12Sign w) (2 ^ 52 + (f12Fraction w).toNat * 2 ^ 47) ((f12Stored w).toNat - 84) := by
  have hstored := (f12Stored w).isLt
  have hfraction := (f12Fraction w).isLt
  have hvalue := f12Value_of_not_zero h
  have hB : (biasedExponent (f12Value w)).toNat = (f12Stored w).toNat + 991 := by
    rw [hvalue, biasedExponent_append, BitVec.toNat_ofNat]
    omega
  have hM : (trailing (f12Value w)).toNat = (f12Fraction w).toNat * 2 ^ 47 := by
    rw [hvalue, trailing_append, BitVec.toNat_ofNat]
    omega
  have hsign : signBit (f12Value w) = f12Sign w := by rw [hvalue, signBit_append]
  have hexp : (((f12Stored w).toNat + 991 : Nat) : Int) - 1075 = (f12Stored w).toNat - 84 := by
    omega
  rw [classify_of_normal (by omega) (by omega), hB, hM, hsign, hexp]

end

/-! ## The encoder's word -/

/-- R79, R80: between the two clamps the encoder packs the biased exponent and the truncated
significand without its implicit bit. -/
theorem f12WordOfFinite_of_mid {neg : Bool} {sig : Nat} {exp E : Int} (hE : floorLog2 sig exp = E)
    (hmin : -32 ≤ E) (hmax : E ≤ 31) :
    f12WordOfFinite neg sig exp =
      f12Pack neg (BitVec.ofNat 6 (E + 32).toNat)
        (BitVec.ofNat 5 (truncScaled sig (exp + (5 - E)) % 2 ^ 5)) := by
  have hlow : ¬ E < minExponent := not_lt.2 hmin
  have hhigh : ¬ maxExponent < E := not_lt.2 hmax
  simp only [f12WordOfFinite, hE, if_neg hlow, if_neg hhigh, mask, Nat.and_two_pow_sub_one_eq_mod]
  rfl

/-- R76, R79: a normal number that has a Float12 word's exponent and fraction is packed into them. -/
theorem f12WordOfFinite_of_fields (neg : Bool) (stored : BitVec 6) (fraction : BitVec 5) :
    f12WordOfFinite neg (2 ^ 52 + fraction.toNat * 2 ^ 47) (stored.toNat - 84) =
      f12Pack neg stored fraction := by
  have hstored := stored.isLt
  have hfraction := fraction.isLt
  have hE : floorLog2 (2 ^ 52 + fraction.toNat * 2 ^ 47) (stored.toNat - 84) =
      (stored.toNat : Int) - 32 := by
    rw [floorLog2, log2_two_pow_add (by omega)]
    omega
  have hscale : (stored.toNat : Int) - 84 + (5 - (stored.toNat - 32)) = -47 := by omega
  have hm : truncScaled (2 ^ 52 + fraction.toNat * 2 ^ 47) (-47) % 2 ^ 5 = fraction.toNat := by
    rw [truncScaled, if_neg (by decide), show (-(-47 : Int)).toNat = 47 from rfl]
    omega
  have hbias : ((stored.toNat : Int) - 32 + 32).toNat = stored.toNat := by omega
  rw [f12WordOfFinite_of_mid hE (by omega) (by omega), hscale, hm, hbias]
  simp

/-- R59: off the zero patterns, encoding the decoder's value gives the word back. -/
theorem f12Word_f12Value {w : Uint12} (h : ¬ isZeroPattern w) : f12Word (f12Value w) = w := by
  rw [f12Word, classify_f12Value h]
  exact (f12WordOfFinite_of_fields _ _ _).trans (f12Pack_fields w)

/-- Settles O18: 0x000 and 0x800 are the two zero patterns, and have preimages of their own. -/
theorem encoderReachesEveryWord : Obligations.EncoderReachesEveryWord := by
  refine ⟨fun w hpos hneg => f12Word_f12Value fun h => ?_, by decide, by decide⟩
  exact (eq_of_isZeroPattern h).elim hpos hneg

end Sys2Proof.Machine
end

section
/-! SUPPORT. The Base64 alphabet codec (spec/40_base64.md R62 to R65). -/

namespace Sys2Proof.Machine

/-! ## A response of one byte (R45) -/

/-- The bits above the value that was widened are 0. -/
theorem extractLsb'_setWidth_above {n m : Nat} (v : BitVec n) (len : Nat) :
    (v.setWidth m).extractLsb' n len = 0 := by
  ext k hk
  simp

section
variable (st : Status) (d : Byte) (s : State)

/-- A response to a byte has the byte in `data[7:0]`. -/
theorem low_byte_of_respond :
    (dataOf (s.respond st (d.setWidth 64)).rsp).extractLsb' 0 8 = d := by
  rw [State.respond_rsp, dataOf_mkResponse, extractLsb'_setWidth_self d (by decide)]

/-- A response to a byte has 0 in `data[63:8]`. -/
theorem high_bits_of_respond :
    (dataOf (s.respond st (d.setWidth 64)).rsp).extractLsb' 8 56 = 0 := by
  rw [State.respond_rsp, dataOf_mkResponse, extractLsb'_setWidth_above]

end

/-! ## The two operations -/

/-- R41: op 0 is `B64_ENC` of the low six operand bits. -/
theorem decodeRequest_op0 (opnd : Word64) :
    decodeRequest (mkRequest 0 opnd) = .b64Enc (opnd.extractLsb' 0 6) := by
  rw [decodeRequest, op_mkRequest, opnd_mkRequest]
  rfl

/-- R41: op 1 is `B64_DEC` of the low operand byte. -/
theorem decodeRequest_op1 (opnd : Word64) :
    decodeRequest (mkRequest 1 opnd) = .b64Dec (opnd.extractLsb' 0 8) := by
  rw [decodeRequest, op_mkRequest, opnd_mkRequest]
  rfl

/-- R62: `B64_ENC` answers OK with the table's symbol. -/
theorem exec_b64Enc (v : Uint6) (s : State) :
    exec (.b64Enc v) s = .next (s.respond .ok ((encAt v).setWidth 64)) := rfl

/-- R63: `B64_DEC` answers the table's entry, and the entry alone gives the status. -/
theorem exec_b64Dec (b : Byte) (s : State) :
    exec (.b64Dec b) s =
      .next (s.respond (statusOfValue (decAt b)) ((decAt b).setWidth 64)) := rfl

/-- R63: the status code of a table entry. -/
theorem statusOfValue_code_eq (d : Byte) :
    (statusOfValue d).code = if d = 255 then 0b01 else 0b00 :=
  apply_ite Status.code _ _ _

/-- R50: a 6-bit value is not the sentinel, so its status is OK. -/
theorem statusOfValue_uint6 (v : Uint6) : statusOfValue (v.setWidth 8) = .ok := by
  refine if_neg fun h => ?_
  have hlt := v.isLt
  have hnat := congrArg BitVec.toNat h
  rw [BitVec.toNat_setWidth_of_le (by decide), show (255 : Byte).toNat = 255 from rfl] at hnat
  omega

/-- R51: the decode table inverts the encode table. -/
theorem decAt_encAt (v : Uint6) : decAt (encAt v) = v.setWidth 8 := by
  obtain ⟨hinverse, -⟩ := decodeTableInvertsEncodeTable
  obtain ⟨-, -, hv⟩ := hinverse v
  exact hv

/-- R64: `B64_DEC` of a symbol answers OK with the value of the symbol. -/
theorem exec_b64Dec_encAt (v : Uint6) (s : State) :
    exec (.b64Dec (encAt v)) s = .next (s.respond .ok (v.setWidth 64)) := by
  rw [exec_b64Dec, decAt_encAt, statusOfValue_uint6, BitVec.setWidth_setWidth (by decide)]

/-- R65: two bytes with one table entry decode alike. -/
theorem exec_b64Dec_congr {b c : Byte} (h : decAt b = decAt c) (s : State) :
    exec (.b64Dec b) s = exec (.b64Dec c) s := by
  rw [exec_b64Dec, exec_b64Dec, h]

/-! ## The claims -/

/-- Settles O5, from the answer of B64_ENC and the layout of a response of one byte. -/
theorem b64EncWritesSymbol : Obligations.B64EncWritesSymbol := by
  intro opnd s
  exact ⟨decodeRequest_op0 opnd, _, exec_b64Enc _ s, rfl, statusOf_mkResponse _ _,
    high_bits_of_respond _ _ s, low_byte_of_respond _ _ s⟩

/-- Settles O6, from the answer of B64_DEC and the layout of a response of one byte. -/
theorem b64DecWritesValueOrInvalid : Obligations.B64DecWritesValueOrInvalid := by
  intro opnd s
  exact ⟨decodeRequest_op1 opnd, _, exec_b64Dec _ s, rfl,
    (statusOf_mkResponse _ _).trans (statusOfValue_code_eq _),
    high_bits_of_respond _ _ s, low_byte_of_respond _ _ s⟩

/-- Settles O7: the byte that B64_ENC returned is the symbol, which decodes to the value. -/
theorem b64RoundTrip : Obligations.B64RoundTrip := by
  intro v s
  refine ⟨_, (s.respond .ok ((encAt v).setWidth 64)).respond .ok (v.setWidth 64),
    exec_b64Enc v s, ?_, statusOf_mkResponse _ _, dataOf_mkResponse _ _⟩
  rw [low_byte_of_respond]
  exact exec_b64Dec_encAt v _

/-- Settles O8: the table gives `-` the entry of `+`, and `_` that of `/`. -/
theorem urlSafeBytesDecodeAlike : Obligations.UrlSafeBytesDecodeAlike := by
  intro s
  obtain ⟨-, hminus, hplus, hunderscore, hslash⟩ := decodeTableInvertsEncodeTable
  exact ⟨exec_b64Dec_congr (hminus.trans hplus.symm) s,
    exec_b64Dec_congr (hunderscore.trans hslash.symm) s⟩

end Sys2Proof.Machine
end

section
/-! SUPPORT. The 12-bit codec (spec/41_uint12.md R66 to R69). -/

namespace Sys2Proof.Machine

/-! ## The value of a pair (R52, R67) -/

/-- R69: the value of a pair depends on the two table entries alone. -/
theorem pairValue_congr {b0 b1 c0 c1 : Byte} (h0 : decAt b0 = decAt c0) (h1 : decAt b1 = decAt c1) :
    pairValue b0 b1 = pairValue c0 c1 := by
  rw [pairValue, pairValue, h0, h1]

/-- R50: the table entry of a symbol is a 6-bit value, not the sentinel. -/
theorem decAt_encAt_ne_invalid (v : Uint6) : decAt (encAt v) ≠ 255 := by
  intro h
  have hok := statusOfValue_uint6 v
  rw [← decAt_encAt, h] at hok
  cases hok

/-- R68: the pair of a word's symbols has the word as its value. -/
theorem pairValue_symbols (w : Uint12) : pairValue (firstSymbol w) (secondSymbol w) = some w := by
  refine pairValue_eq_some.2 ⟨decAt_encAt_ne_invalid _, decAt_encAt_ne_invalid _, ?_⟩
  rw [firstSymbol, secondSymbol, decAt_encAt, decAt_encAt,
    extractLsb'_setWidth_self _ (by decide), extractLsb'_setWidth_self _ (by decide),
    BitVec.extractLsb'_append_extractLsb'_eq_extractLsb' (show 6 = 0 + 6 from rfl),
    BitVec.extractLsb'_eq_self]

/-- R50: the low six bits of a valid table entry are the whole entry. -/
theorem toNat_extractLsb'_decAt {b : Byte} (h : decAt b ≠ 255) :
    ((decAt b).extractLsb' 0 6).toNat = (decAt b).toNat := by
  have hle := (decAt_invalid_or_uint6 b).resolve_left h
  rw [BitVec.extractLsb'_toNat, Nat.shiftRight_zero, Nat.mod_eq_of_lt (by omega)]

/-- R67: the first symbol of a valid pair gives the high six bits of the value. -/
theorem toNat_of_pairValue {b0 b1 : Byte} {v : Uint12} (h : pairValue b0 b1 = some v) :
    v.toNat = (decAt b0).toNat * 2 ^ 6 + (decAt b1).toNat := by
  obtain ⟨h0, h1, rfl⟩ := pairValue_eq_some.1 h
  have hle := (decAt_invalid_or_uint6 b1).resolve_left h1
  rw [BitVec.toNat_append, ← Nat.shiftLeft_add_eq_or_of_lt (BitVec.isLt _), Nat.shiftLeft_eq,
    toNat_extractLsb'_decAt h0, toNat_extractLsb'_decAt h1]

/-! ## The two operations -/

/-- R41: op 2 is `U12_ENC` of the low twelve operand bits. -/
theorem decodeRequest_op2 (opnd : Word64) :
    decodeRequest (mkRequest 2 opnd) = .u12Enc (opnd.extractLsb' 0 12) := by
  rw [decodeRequest, op_mkRequest, opnd_mkRequest]
  rfl

/-- R41: op 3 is `U12_DEC` of the two low operand bytes, the first symbol in the upper one. -/
theorem decodeRequest_op3 (opnd : Word64) :
    decodeRequest (mkRequest 3 opnd) =
      .u12Dec (opnd.extractLsb' 8 8) (opnd.extractLsb' 0 8) := by
  rw [decodeRequest, op_mkRequest, opnd_mkRequest]
  rfl

/-- R66: `U12_ENC` answers OK with the two symbols. -/
theorem exec_u12Enc (v : Uint12) (s : State) :
    exec (.u12Enc v) s = .next (s.respond .ok ((symbolPair v).setWidth 64)) := rfl

section
variable {b0 b1 c0 c1 : Byte} {v : Uint12} (s : State)

/-- R67: `U12_DEC` of a pair that has a value answers OK with the value. -/
theorem exec_u12Dec_of_some (h : pairValue b0 b1 = some v) :
    exec (.u12Dec b0 b1) s = .next (s.respond .ok (v.setWidth 64)) := by
  rw [exec, execU12Dec, h]

/-- R67: `U12_DEC` of a pair that has no value answers with a draw of 12 bits. -/
theorem exec_u12Dec_of_none (h : pairValue b0 b1 = none) :
    exec (.u12Dec b0 b1) s = .next (s.respondDraw 12) := by
  rw [exec, execU12Dec, h]

/-- R69: two pairs with the same table entries decode alike. -/
theorem exec_u12Dec_congr (h0 : decAt b0 = decAt c0) (h1 : decAt b1 = decAt c1) :
    exec (.u12Dec b0 b1) s = exec (.u12Dec c0 c1) s := by
  rw [exec, exec, execU12Dec, execU12Dec, pairValue_congr h0 h1]

end

/-! ## The response of `U12_ENC` (R45) -/

section
variable (st : Status) (w : Uint12) (s : State)

/-- A response to a pair of symbols has the first one in `data[15:8]`. -/
theorem high_symbol_of_respond :
    (dataOf (s.respond st ((symbolPair w).setWidth 64)).rsp).extractLsb' 8 8 = firstSymbol w := by
  rw [State.respond_rsp, dataOf_mkResponse, symbolPair, high_byte_of_pair]

/-- A response to a pair of symbols has the second one in `data[7:0]`. -/
theorem low_symbol_of_respond :
    (dataOf (s.respond st ((symbolPair w).setWidth 64)).rsp).extractLsb' 0 8 = secondSymbol w := by
  rw [State.respond_rsp, dataOf_mkResponse, symbolPair, low_byte_of_pair]

end

/-! ## The response with a draw (R45) -/

section
variable {width : Nat} (s : State)

/-- A response with a draw has it in the low data bits. -/
theorem low_bits_of_respondDraw (hle : width ≤ 64) :
    (dataOf (s.respondDraw width).rsp).extractLsb' 0 width = Config.draw width s.draws := by
  rw [State.respondDraw_rsp, dataOf_mkResponse, extractLsb'_setWidth_self _ hle, State.draw]

/-- A response with a draw has 0 in the data bits above it. -/
theorem high_bits_of_respondDraw (len : Nat) :
    (dataOf (s.respondDraw width).rsp).extractLsb' width len = 0 := by
  rw [State.respondDraw_rsp, dataOf_mkResponse, extractLsb'_setWidth_above]

end

/-! ## The claims -/

/-- R50: the bytes that are not among the 190 INVALID ones. -/
theorem count_valid :
    ((List.range 256).filter fun n => decAt (BitVec.ofNat 8 n) ≠ 255).length = 66 := by
  obtain ⟨hinvalid, -⟩ := invalidBytesAre190
  have hsplit := List.length_eq_length_filter_add (l := List.range 256)
    fun n => decide (decAt (BitVec.ofNat 8 n) = 255)
  rw [List.length_range, hinvalid] at hsplit
  simp only [ne_eq, decide_not]
  omega

/-- Settles O11: the two bytes that U12_ENC returned are the word's symbols, whose pair has the
word as its value. -/
theorem u12RoundTrip : Obligations.U12RoundTrip := by
  intro v s
  refine ⟨_, (s.respond .ok ((symbolPair v).setWidth 64)).respond .ok (v.setWidth 64),
    exec_u12Enc v s, ?_, statusOf_mkResponse _ _, dataOf_mkResponse _ _⟩
  rw [high_symbol_of_respond, low_symbol_of_respond]
  exact exec_u12Dec_of_some _ (pairValue_symbols v)

/-- Settles O12: the table gives `-` the entry of `+`, and `_` that of `/`. -/
theorem urlSafePairsDecodeAlike : Obligations.UrlSafePairsDecodeAlike := by
  obtain ⟨-, hminus, hplus, hunderscore, hslash⟩ := decodeTableInvertsEncodeTable
  have h62 : decAt 0x2D = decAt 0x2B := hminus.trans hplus.symm
  have h63 : decAt 0x5F = decAt 0x2F := hunderscore.trans hslash.symm
  exact ⟨fun b s => ⟨exec_u12Dec_congr s h62 rfl, exec_u12Dec_congr s h63 rfl,
    exec_u12Dec_congr s rfl h62, exec_u12Dec_congr s rfl h63⟩, count_valid⟩

/-- Settles O9, from the answer of U12_ENC and the layout of a response of two symbols. -/
theorem u12EncWritesTwoSymbols : Obligations.U12EncWritesTwoSymbols := by
  intro opnd s
  refine ⟨decodeRequest_op2 opnd, _, exec_u12Enc _ s, rfl, statusOf_mkResponse _ _, ?_, ?_, ?_⟩
  · rw [State.respond_rsp, dataOf_mkResponse, extractLsb'_setWidth_above]
  · rw [high_symbol_of_respond, firstSymbol, BitVec.extractLsb'_extractLsb'_of_le (by decide)]
  · rw [low_symbol_of_respond, secondSymbol, BitVec.extractLsb'_extractLsb'_of_le (by decide)]

/-- Settles O10, by whether the pair of operand bytes has a value. -/
theorem u12DecWritesValueOrDraw : Obligations.U12DecWritesValueOrDraw := by
  intro opnd s
  refine ⟨decodeRequest_op3 opnd, ?_⟩
  cases h : pairValue (opnd.extractLsb' 8 8) (opnd.extractLsb' 0 8) with
  | none =>
    refine ⟨_, exec_u12Dec_of_none s h, ?_⟩
    rw [if_pos (pairValue_eq_none.1 h)]
    exact ⟨rfl, statusOf_mkResponse _ _, high_bits_of_respondDraw s 52,
      low_bits_of_respondDraw s (by decide)⟩
  | some v =>
    obtain ⟨h0, h1, -⟩ := pairValue_eq_some.1 h
    refine ⟨_, exec_u12Dec_of_some s h, ?_⟩
    rw [if_neg (not_or_intro h0 h1)]
    refine ⟨rfl, statusOf_mkResponse _ _, ?_⟩
    rw [State.respond_rsp, dataOf_mkResponse, BitVec.toNat_setWidth_of_le (by decide),
      toNat_of_pairValue h]

end Sys2Proof.Machine
end

section
/-! SUPPORT. The Float12 encoder on exact numbers and on the fields of a binary64 word
(spec/42_float12_encoder.md R70 to R85). -/

namespace Sys2Proof.Machine

/-! ## The fields of a packed word (R53, R80) -/

section
variable (neg : Bool) (stored : BitVec 6) (fraction : BitVec 5)

@[simp] theorem f12Sign_f12Pack : f12Sign (f12Pack neg stored fraction) = neg := by
  rw [f12Sign, f12Pack, BitVec.getLsbD_append, BitVec.getLsbD_append]
  simp

@[simp] theorem f12Stored_f12Pack : f12Stored (f12Pack neg stored fraction) = stored := by
  rw [f12Stored, f12Pack, BitVec.extractLsb'_append_eq_of_le le_rfl]
  exact BitVec.extractLsb'_append_eq_right

@[simp] theorem f12Fraction_f12Pack : f12Fraction (f12Pack neg stored fraction) = fraction := by
  rw [f12Fraction, f12Pack, BitVec.extractLsb'_append_eq_right]

/-- R77: a word without exponent and fraction is a zero pattern. -/
theorem isZeroPattern_f12Pack_zero : isZeroPattern (f12Pack neg 0 0) :=
  ⟨f12Stored_f12Pack _ _ _, f12Fraction_f12Pack _ _ _⟩

/-- R84 writes the packed word as an OR of its three fields, each shifted to its place. -/
theorem f12Pack_eq_or :
    f12Pack neg stored fraction =
      (if neg then 0x800 else 0x000) ||| (stored.setWidth 12 <<< (5 : Nat)) |||
        fraction.setWidth 12 := by
  rw [f12Pack, BitVec.append_def, BitVec.append_def, BitVec.shiftLeftZeroExtend_eq,
    BitVec.shiftLeftZeroExtend_eq]
  cases neg <;> simp [BitVec.shiftLeft_or_distrib]

end

/-! ## Exact logarithm and truncation (R10, R74, R76) -/

section
variable {sig : Nat} {exp : Int}

/-- R74: two to the exact exponent is the power of two at or below the magnitude. -/
theorem zpow_floorLog2_le (hsig : sig ≠ 0) :
    (2 : ℚ) ^ floorLog2 sig exp ≤ (sig : ℚ) * 2 ^ exp := by
  rw [floorLog2, zpow_add₀ two_ne_zero, zpow_natCast]
  have hlog : ((2 ^ sig.log2 : ℕ) : ℚ) ≤ sig := Nat.cast_le.2 (Nat.log2_self_le hsig)
  push_cast at hlog
  gcongr

/-- R74: the next power of two is above the magnitude. -/
theorem lt_zpow_floorLog2_succ : (sig : ℚ) * 2 ^ exp < 2 ^ (floorLog2 sig exp + 1) := by
  have hexp : floorLog2 sig exp + 1 = ((sig.log2 + 1 : ℕ) : ℤ) + exp := by
    rw [floorLog2]
    omega
  have hlog : (sig : ℚ) < ((2 ^ (sig.log2 + 1) : ℕ) : ℚ) := Nat.cast_lt.2 Nat.lt_log2_self
  push_cast at hlog
  rw [hexp, zpow_add₀ two_ne_zero, zpow_natCast]
  gcongr

/-- R76: the model's integer truncation is the floor of the exact magnitude. -/
theorem truncScaled_eq_floor : (truncScaled sig exp : ℤ) = ⌊(sig : ℚ) * 2 ^ exp⌋ := by
  unfold truncScaled
  split
  · next hexp =>
    obtain ⟨n, rfl⟩ := Int.eq_ofNat_of_zero_le hexp
    rw [zpow_natCast, Int.toNat_natCast]
    exact_mod_cast (Int.floor_natCast (R := ℚ) (sig * 2 ^ n)).symm
  · next hexp =>
    obtain ⟨n, rfl⟩ : ∃ n : ℕ, exp = -n := ⟨(-exp).toNat, by omega⟩
    rw [zpow_neg, zpow_natCast, ← div_eq_mul_inv, neg_neg, Int.toNat_natCast]
    exact_mod_cast (Rat.floor_natCast_div_natCast sig (2 ^ n)).symm

/-- R76: what the encoder truncates is the magnitude scaled to its exponent. -/
theorem truncScaled_significand :
    (truncScaled sig (exp + (5 - floorLog2 sig exp)) : ℤ) =
      ⌊(sig : ℚ) * 2 ^ exp * 2 ^ (5 - floorLog2 sig exp)⌋ := by
  rw [truncScaled_eq_floor, zpow_add₀ two_ne_zero, mul_assoc]

/-- R76: the scaled magnitude is at least 32, as `2^E` is at or below the magnitude. -/
theorem le_scaled_magnitude (hsig : sig ≠ 0) :
    (32 : ℚ) ≤ (sig : ℚ) * 2 ^ exp * 2 ^ (5 - floorLog2 sig exp) := by
  calc (32 : ℚ) = 2 ^ floorLog2 sig exp * 2 ^ (5 - floorLog2 sig exp) := by
        rw [← zpow_add₀ two_ne_zero, add_sub_cancel]
        norm_num
    _ ≤ (sig : ℚ) * 2 ^ exp * 2 ^ (5 - floorLog2 sig exp) :=
        mul_le_mul_of_nonneg_right (zpow_floorLog2_le hsig) (by positivity)

/-- R76: the scaled magnitude is below 64, as `2^(E + 1)` is above the magnitude. -/
theorem scaled_magnitude_lt : (sig : ℚ) * 2 ^ exp * 2 ^ (5 - floorLog2 sig exp) < 64 := by
  calc (sig : ℚ) * 2 ^ exp * 2 ^ (5 - floorLog2 sig exp)
      < 2 ^ (floorLog2 sig exp + 1) * 2 ^ (5 - floorLog2 sig exp) :=
        mul_lt_mul_of_pos_right lt_zpow_floorLog2_succ (by positivity)
    _ = 64 := by
        rw [← zpow_add₀ two_ne_zero,
          show floorLog2 sig exp + 1 + (5 - floorLog2 sig exp) = 6 by ring]
        norm_num

/-- R79: the truncated significand has its leading 1 at bit 5, so the mask takes away 32. -/
theorem truncScaled_significand_mod (hsig : sig ≠ 0) :
    ((truncScaled sig (exp + (5 - floorLog2 sig exp)) % 2 ^ 5 : ℕ) : ℤ) =
      ⌊(sig : ℚ) * 2 ^ exp * 2 ^ (5 - floorLog2 sig exp)⌋ - 32 := by
  have hlow := Int.le_floor.2 (by exact_mod_cast le_scaled_magnitude (exp := exp) hsig :
    ((32 : ℤ) : ℚ) ≤ (sig : ℚ) * 2 ^ exp * 2 ^ (5 - floorLog2 sig exp))
  have hhigh := Int.floor_lt.2 (by exact_mod_cast scaled_magnitude_lt :
    (sig : ℚ) * 2 ^ exp * 2 ^ (5 - floorLog2 sig exp) < ((64 : ℤ) : ℚ))
  rw [← truncScaled_significand] at hlow hhigh ⊢
  omega

end

/-! ## The word of a nonzero finite value (R70, R74 to R80) -/

section
variable {neg : Bool} {sig : Nat} {exp : Int}

/-- R77: below the least exponent the encoder keeps the sign alone. -/
theorem f12WordOfFinite_of_low (hE : floorLog2 sig exp < -32) :
    f12WordOfFinite neg sig exp = f12Pack neg 0 0 := if_pos hE

/-- R78: above the greatest exponent the encoder saturates. -/
theorem f12WordOfFinite_of_high (hE : 31 < floorLog2 sig exp) :
    f12WordOfFinite neg sig exp = f12Pack neg 63 31 := by
  have hlow : ¬ floorLog2 sig exp < minExponent := by
    simp only [minExponent, exponentOffset]
    omega
  exact (if_neg hlow).trans (if_pos hE)

/-- R79, R80: between the clamps the two fields are the biased exponent and the truncated
significand without its leading 1. -/
theorem f12WordOfFinite_fields_of_mid (hsig : sig ≠ 0) (hmin : -32 ≤ floorLog2 sig exp)
    (hmax : floorLog2 sig exp ≤ 31) :
    ((f12Stored (f12WordOfFinite neg sig exp)).toNat : ℤ) = floorLog2 sig exp + 32 ∧
    ((f12Fraction (f12WordOfFinite neg sig exp)).toNat : ℤ) =
      ⌊(sig : ℚ) * 2 ^ exp * 2 ^ (5 - floorLog2 sig exp)⌋ - 32 := by
  rw [f12WordOfFinite_of_mid rfl hmin hmax, f12Stored_f12Pack, f12Fraction_f12Pack,
    BitVec.toNat_ofNat, BitVec.toNat_ofNat, Nat.mod_mod]
  exact ⟨by omega, truncScaled_significand_mod hsig⟩

/-- R73: every clause of the encoder packs the sign of the value. -/
theorem f12Sign_f12WordOfFinite : f12Sign (f12WordOfFinite neg sig exp) = neg := by
  rcases lt_or_ge (floorLog2 sig exp) (-32) with hlow | hmin
  · rw [f12WordOfFinite_of_low hlow, f12Sign_f12Pack]
  rcases lt_or_ge 31 (floorLog2 sig exp) with hhigh | hmax
  · rw [f12WordOfFinite_of_high hhigh, f12Sign_f12Pack]
  · rw [f12WordOfFinite_of_mid rfl hmin hmax, f12Sign_f12Pack]

end

/-! ## The word of a binary64 word -/

section
variable {x : Word64}

/-- R11: a finite class is nonzero. -/
theorem sig_ne_zero_of_classify {neg : Bool} {sig : Nat} {exp : Int}
    (h : classify x = .finite neg sig exp) : sig ≠ 0 := by
  by_cases hspecial : (biasedExponent x).toNat = 0x7FF
  · rw [classify_of_special hspecial] at h
    split at h <;> cases h
  by_cases hB : (biasedExponent x).toNat = 0
  · rw [classify_of_small hB] at h
    split at h
    · cases h
    · next hM =>
      cases h
      exact hM
  · rw [classify_of_normal hspecial hB] at h
    cases h
    omega

/-- The encoder reads the class of its operand and nothing else. -/
theorem f12Word_of_classify {c : F64Class} (h : classify x = c) : f12Word x = f12WordOfClass c :=
  congrArg f12WordOfClass h

end

/-- Settles O15: the exponent is the model's exact one, and the three ranges of R77, R78 and R79
give the fields. -/
theorem encoderWordInExactReals : Obligations.EncoderWordInExactReals := by
  intro x
  cases hclass : classify x with
  | nan => exact f12Word_of_classify hclass
  | zero neg => exact f12Word_of_classify hclass
  | infinite neg =>
    refine (f12Word_of_classify hclass).trans ?_
    cases neg <;> rfl
  | finite neg sig exp =>
    have hsig := sig_ne_zero_of_classify hclass
    have hword : f12Word x = f12WordOfFinite neg sig exp := f12Word_of_classify hclass
    dsimp only
    rw [hword]
    refine ⟨f12Sign_f12WordOfFinite, floorLog2 sig exp, zpow_floorLog2_le hsig,
      lt_zpow_floorLog2_succ, ?_⟩
    split
    · next hlow => simp [f12WordOfFinite_of_low hlow]
    · next hmin =>
      split
      · next hhigh => simp [f12WordOfFinite_of_high hhigh]
      · next hmax => exact f12WordOfFinite_fields_of_mid hsig (not_lt.1 hmin) (not_lt.1 hmax)

/-! ## The table of R84 -/

section
variable {x : Word64}

/-- A significand with its leading 1 at bit 52 is a normal number's, whose exponent is `B - 1023`. -/
theorem floorLog2_of_normal {M : Nat} (hM : M < 2 ^ 52) (B : Int) :
    floorLog2 (2 ^ 52 + M) (B - 1075) = B - 1023 := by
  rw [floorLog2, log2_two_pow_add hM]
  omega

/-- R77: every subnormal number is below the least exponent. -/
theorem floorLog2_of_subnormal_lt {M : Nat} (hM : M < 2 ^ 52) (hpos : M ≠ 0) :
    floorLog2 M (-1074) < -32 := by
  have hlog := (Nat.log2_lt hpos).2 hM
  rw [floorLog2]
  omega

/-- R76, R79: a normal number's truncated significand without its leading 1 is `M[51:47]`. -/
theorem truncScaled_of_normal (M : BitVec 52) :
    BitVec.ofNat 5 (truncScaled (2 ^ 52 + M.toNat) (-47) % 2 ^ 5) = M.extractLsb' 47 5 := by
  apply BitVec.eq_of_toNat_eq
  rw [BitVec.toNat_ofNat, BitVec.extractLsb'_toNat, truncScaled, if_neg (by decide),
    show (-(-47 : Int)).toNat = 47 from rfl, Nat.shiftRight_eq_div_pow]
  omega

theorem toNat_trailing_eq_zero : (trailing x).toNat = 0 ↔ trailing x = 0 :=
  BitVec.toNat_inj (y := 0)

/-- R84, first row: NaN. -/
theorem f12Word_of_nan (hB : (biasedExponent x).toNat = 0x7FF) (hM : trailing x ≠ 0) :
    f12Word x = 0x000 := by
  refine f12Word_of_classify (c := .nan) ?_
  rw [classify_of_special hB, if_neg (mt toNat_trailing_eq_zero.1 hM)]

/-- R84, second row: the two zeros. -/
theorem f12Word_of_zero (hB : (biasedExponent x).toNat = 0) (hM : trailing x = 0) :
    f12Word x = 0x000 := by
  refine f12Word_of_classify (c := .zero (signBit x)) ?_
  rw [classify_of_small hB, if_pos (toNat_trailing_eq_zero.2 hM)]

/-- R84, third row: a subnormal number keeps its sign alone. -/
theorem f12Word_of_subnormal (hB : (biasedExponent x).toNat = 0) (hM : trailing x ≠ 0) :
    f12Word x = f12Pack (signBit x) 0 0 := by
  have hpos : (trailing x).toNat ≠ 0 := mt toNat_trailing_eq_zero.1 hM
  rw [f12Word, classify_of_small hB, if_neg hpos]
  exact f12WordOfFinite_of_low (floorLog2_of_subnormal_lt (trailing x).isLt hpos)

/-- R84, fourth row: the infinities saturate. -/
theorem f12Word_of_infinite (hB : (biasedExponent x).toNat = 0x7FF) (hM : trailing x = 0) :
    f12Word x = f12Pack (signBit x) 63 31 := by
  refine f12Word_of_classify (c := .infinite (signBit x)) ?_
  rw [classify_of_special hB, if_pos (toNat_trailing_eq_zero.2 hM)]

/-- R84, the last three rows: the word of a normal number is that of its significand at its
exponent. -/
theorem f12Word_of_normal (hspecial : (biasedExponent x).toNat ≠ 0x7FF)
    (hB : (biasedExponent x).toNat ≠ 0) :
    f12Word x = f12WordOfFinite (signBit x) (2 ^ 52 + (trailing x).toNat)
      ((biasedExponent x).toNat - 1075) :=
  f12Word_of_classify (classify_of_normal hspecial hB)

/-- R84, sixth row: `B` moves to the bias of Float12 and `M` loses its low 47 bits. -/
theorem f12WordOfFinite_of_normal_mid {neg : Bool} {B : Nat} (M : BitVec 52) (hmin : 991 ≤ B)
    (hmax : B ≤ 1054) :
    f12WordOfFinite neg (2 ^ 52 + M.toNat) (B - 1075) =
      f12Pack neg (BitVec.ofNat 6 (B - 991)) (M.extractLsb' 47 5) := by
  have hbias : ((B : Int) - 1023 + 32).toNat = B - 991 := by omega
  have hscale : (B : Int) - 1075 + (5 - (B - 1023)) = -47 := by omega
  rw [f12WordOfFinite_of_mid (floorLog2_of_normal M.isLt B) (by omega) (by omega), hbias, hscale,
    truncScaled_of_normal]

end

/-- R84: the word of an underflow is the sign in bit 11. -/
theorem f12Pack_zero (neg : Bool) : f12Pack neg 0 0 = if neg then 0x800 else 0x000 := by
  cases neg <;> rfl

/-- R84: the word of a saturation is the sign above eleven ones. -/
theorem f12Pack_max (neg : Bool) :
    f12Pack neg 63 31 = (if neg then 0x800 else 0x000) ||| 0x7FF := by
  cases neg <;> rfl

/-- Settles O16, row by row of R84. -/
theorem encoderWordByFields : Obligations.EncoderWordByFields := by
  intro x
  dsimp only
  split
  · next h => exact f12Word_of_nan h.1 h.2
  next hnan =>
  split
  · next h => exact f12Word_of_zero h.1 h.2
  next hzero =>
  split
  · next hB => exact (f12Word_of_subnormal hB fun hM => hzero ⟨hB, hM⟩).trans (f12Pack_zero _)
  next hB =>
  split
  · next hspecial =>
    have hM : trailing x = 0 := by_contra fun hM => hnan ⟨hspecial, hM⟩
    exact (f12Word_of_infinite hspecial hM).trans (f12Pack_max _)
  next hspecial =>
  have hE := floorLog2_of_normal (trailing x).isLt (biasedExponent x).toNat
  rw [f12Word_of_normal hspecial hB]
  split
  · next hlow => rw [f12WordOfFinite_of_low (by omega), f12Pack_zero]
  next hmin =>
  split
  · next hmax =>
    rw [f12WordOfFinite_of_normal_mid _ (by omega) hmax, f12Pack_eq_or,
      BitVec.setWidth_ofNat_of_le_of_lt (by decide) (by omega)]
  · next hmax => rw [f12WordOfFinite_of_high (by omega), f12Pack_max]

/-! ## Rounding toward zero (R81) -/

/-- R87: a zero pattern decodes to +0.0. -/
theorem f12Value_of_zero {w : Uint12} (h : isZeroPattern w) : f12Value w = 0 := if_pos h

/-- R86: the real that a word decodes to, off the zero patterns. -/
theorem value_f12Value {w : Uint12} (h : ¬ isZeroPattern w) :
    (classify (f12Value w)).value = some
      ((if f12Sign w then -1 else 1) *
        ((32 + ((f12Fraction w).toNat : ℚ)) * 2 ^ (((f12Stored w).toNat : ℤ) - 37))) := by
  have hexp : ((f12Stored w).toNat : ℤ) - 37 = 47 + ((f12Stored w).toNat - 84) := by omega
  rw [classify_f12Value h, F64Class.value, hexp, zpow_add₀ two_ne_zero]
  push_cast
  congr 2
  ring

section
variable {neg : Bool} {sig : Nat} {exp : Int} {w : Uint12}

/-- R81: what the fields of an encoded number stand for is at most its magnitude. A saturated word
is below the power of two at or below the magnitude, and between the clamps it is a floor. -/
theorem decoded_magnitude_le (hsig : sig ≠ 0) (hw : f12WordOfFinite neg sig exp = w)
    (h : ¬ isZeroPattern w) :
    (32 + ((f12Fraction w).toNat : ℚ)) * 2 ^ (((f12Stored w).toNat : ℤ) - 37) ≤
      (sig : ℚ) * 2 ^ exp := by
  rcases lt_or_ge (floorLog2 sig exp) (-32) with hlow | hmin
  · rw [← hw, f12WordOfFinite_of_low hlow] at h
    exact absurd (isZeroPattern_f12Pack_zero neg) h
  rcases lt_or_ge 31 (floorLog2 sig exp) with hhigh | hmax
  · rw [← hw, f12WordOfFinite_of_high hhigh, f12Fraction_f12Pack, f12Stored_f12Pack]
    calc (32 + ((31 : ℕ) : ℚ)) * 2 ^ (((63 : ℕ) : ℤ) - 37)
        ≤ 2 ^ (32 : ℤ) := by norm_num
      _ ≤ 2 ^ floorLog2 sig exp := zpow_le_zpow_right₀ one_le_two hhigh
      _ ≤ (sig : ℚ) * 2 ^ exp := zpow_floorLog2_le hsig
  · obtain ⟨hstored, hfraction⟩ := f12WordOfFinite_fields_of_mid (neg := neg) hsig hmin hmax
    rw [hw] at hstored hfraction
    have hfloor : 32 + ((f12Fraction w).toNat : ℚ) =
        ⌊(sig : ℚ) * 2 ^ exp * 2 ^ (5 - floorLog2 sig exp)⌋ :=
      eq_sub_iff_add_eq'.1 (by exact_mod_cast hfraction)
    rw [hstored, hfloor, show floorLog2 sig exp + 32 - 37 = -(5 - floorLog2 sig exp) by ring,
      zpow_neg, ← div_eq_mul_inv, div_le_iff₀ (by positivity)]
    exact Int.floor_le _

/-- A signed positive number has its sign, whatever its magnitude. -/
theorem sign_signed_pos {p : ℚ} (hp : 0 < p) :
    SignType.sign ((if neg then -1 else 1) * p) = if neg then -1 else 1 := by
  cases neg <;> simp [hp]

/-- A signed number has its magnitude. -/
theorem abs_signed_pos {p : ℚ} (hp : 0 < p) : |(if neg then -1 else 1) * p| = p := by
  cases neg <;> simp [abs_of_pos hp]

end

/-- Settles O17: a zero pattern decodes to 0; any other word carries the sign of the number, and a
magnitude that `decoded_magnitude_le` bounds. -/
theorem encoderRoundsTowardZero : Obligations.EncoderRoundsTowardZero := by
  intro x v hv
  by_cases hzero : isZeroPattern (f12Word x)
  · refine ⟨0, ?_, by simp, .inl rfl⟩
    rw [f12Value_of_zero hzero]
    rfl
  refine ⟨_, value_f12Value hzero, ?_⟩
  cases hclass : classify x with
  | nan => rw [hclass] at hv; cases hv
  | infinite neg => rw [hclass] at hv; cases hv
  | zero neg =>
    rw [f12Word_of_classify hclass] at hzero
    exact absurd (isZeroPattern_f12Pack_zero false) hzero
  | finite neg sig exp =>
    rw [hclass] at hv
    obtain rfl := Option.some.inj hv
    have hsig := sig_ne_zero_of_classify hclass
    have hword : f12Word x = f12WordOfFinite neg sig exp := f12Word_of_classify hclass
    rw [hword] at hzero ⊢
    have hmagnitude : (0 : ℚ) < sig * 2 ^ exp := by positivity
    rw [f12Sign_f12WordOfFinite, abs_signed_pos (by positivity), abs_signed_pos hmagnitude,
      sign_signed_pos (by positivity), sign_signed_pos hmagnitude]
    exact ⟨decoded_magnitude_le hsig rfl hzero, .inr rfl⟩

/-! ## The operation (R70, R85) -/

/-- R41: op 4 is `F12_ENC` of the whole operand. -/
theorem decodeRequest_op4 (x : Word64) : decodeRequest (mkRequest 4 x) = .f12Enc x := by
  rw [decodeRequest, op_mkRequest, opnd_mkRequest]
  rfl

/-- R70: `F12_ENC` answers OK with the word above its two symbols. -/
theorem exec_f12Enc (x : Word64) (s : State) :
    exec (.f12Enc x) s =
      .next (s.respond .ok ((f12Word x ++ symbolPair (f12Word x)).setWidth 64)) := rfl

section
variable (w : Uint12)

/-- A word above its symbols has 0 in `data[63:28]`. -/
theorem bits_above_word : ((w ++ symbolPair w).setWidth 64).extractLsb' 28 36 = 0 :=
  extractLsb'_setWidth_above _ _

/-- A word above its symbols is in `data[27:16]`. -/
theorem word_of_wordAndSymbols : ((w ++ symbolPair w).setWidth 64).extractLsb' 16 12 = w := by
  rw [BitVec.extractLsb'_setWidth_of_le (by decide), BitVec.extractLsb'_append_eq_left]

/-- The first symbol of a word is in `data[15:8]`. -/
theorem firstSymbol_of_wordAndSymbols :
    ((w ++ symbolPair w).setWidth 64).extractLsb' 8 8 = firstSymbol w := by
  rw [BitVec.extractLsb'_setWidth_of_le (by decide),
    BitVec.extractLsb'_append_eq_of_add_le (by decide), symbolPair,
    BitVec.extractLsb'_append_eq_left]

/-- The second symbol of a word is in `data[7:0]`. -/
theorem secondSymbol_of_wordAndSymbols :
    ((w ++ symbolPair w).setWidth 64).extractLsb' 0 8 = secondSymbol w := by
  rw [BitVec.extractLsb'_setWidth_of_le (by decide),
    BitVec.extractLsb'_append_eq_of_add_le (by decide), symbolPair,
    BitVec.extractLsb'_append_eq_right]

end

/-- Settles O13, from the answer of F12_ENC and the layout of a word above its two symbols. -/
theorem f12EncWritesWordAndSymbols : Obligations.F12EncWritesWordAndSymbols := by
  intro x s
  refine ⟨decodeRequest_op4 x, _, exec_f12Enc x s, rfl, statusOf_mkResponse _ _, ?_⟩
  rw [State.respond_rsp, dataOf_mkResponse]
  exact ⟨bits_above_word _, word_of_wordAndSymbols _, firstSymbol_of_wordAndSymbols _,
    secondSymbol_of_wordAndSymbols _⟩

end Sys2Proof.Machine
end

section
/-! SUPPORT. The Float12 decoder and the round trip through the encoder
(spec/43_float12_decoder.md R86 to R95). -/

namespace Sys2Proof.Machine

/-! ## The decoder's value (R86 to R90) -/

section
variable {w w' : Uint12}

/-- R89 writes a binary64 word as an OR of its three fields, each shifted to its place. -/
theorem binary64_append_eq_or (neg : Bool) (B : BitVec 11) (M : BitVec 52) :
    BitVec.ofBool neg ++ B ++ M =
      ((BitVec.ofBool neg).setWidth 64 <<< (63 : Nat)) ||| (B.setWidth 64 <<< (52 : Nat)) |||
        M.setWidth 64 := by
  rw [BitVec.append_def, BitVec.append_def, BitVec.shiftLeftZeroExtend_eq,
    BitVec.shiftLeftZeroExtend_eq]
  cases neg <;> simp [BitVec.shiftLeft_or_distrib]

/-- R89: the fraction stands at the top of the trailing significand. -/
theorem setWidth_trailing_of_fraction (f : BitVec 5) :
    (BitVec.ofNat 52 (f.toNat * 2 ^ 47)).setWidth 64 = f.setWidth 64 <<< (47 : Nat) := by
  have hf := f.isLt
  apply BitVec.eq_of_toNat_eq
  rw [BitVec.setWidth_ofNat_of_le_of_lt (by decide) (by omega), BitVec.toNat_ofNat,
    BitVec.toNat_shiftLeft, BitVec.toNat_setWidth_of_le (by decide), Nat.shiftLeft_eq]

/-- R90: the biased exponent of a decoded value is at least 991, so the value is normal. -/
theorem biasedExponent_f12Value (h : ¬ isZeroPattern w) :
    (biasedExponent (f12Value w)).toNat = (f12Stored w).toNat + 991 := by
  have hstored := (f12Stored w).isLt
  rw [f12Value_of_not_zero h, biasedExponent_append, BitVec.toNat_ofNat]
  omega

/-- R58: a zero pattern has the numbers 0 in both fields. -/
theorem isZeroPattern_iff_toNat :
    isZeroPattern w ↔ (f12Stored w).toNat = 0 ∧ (f12Fraction w).toNat = 0 :=
  and_congr (BitVec.toNat_inj (y := 0)).symm (BitVec.toNat_inj (y := 0)).symm

/-- R87: only the zero patterns decode to 0. -/
theorem f12Value_eq_zero : f12Value w = 0 ↔ isZeroPattern w := by
  refine ⟨fun hvalue => by_contra fun h => ?_, f12Value_of_zero⟩
  have hB := biasedExponent_f12Value h
  rw [hvalue, show (biasedExponent 0).toNat = 0 from rfl] at hB
  omega

/-- R90: off the zero patterns the encoder recovers the word from its value, so no two words share
one. -/
theorem eq_of_f12Value_eq (h : f12Value w = f12Value w') (hw : ¬ isZeroPattern w) : w = w' := by
  have hw' : ¬ isZeroPattern w' := by rwa [← f12Value_eq_zero, ← h, f12Value_eq_zero]
  rw [← f12Word_f12Value hw, h, f12Word_f12Value hw']

/-- R86: a decoded value's binary64 significand and exponent stand for `m * 2^(e - 5)`. -/
theorem decoded_magnitude_eq (stored fraction : ℕ) :
    ((2 ^ 52 + fraction * 2 ^ 47 : ℕ) : ℚ) * 2 ^ ((stored : ℤ) - 84) =
      (32 + (fraction : ℚ)) * 2 ^ ((stored : ℤ) - 37) := by
  rw [show (stored : ℤ) - 37 = 47 + (stored - 84) by ring, zpow_add₀ two_ne_zero]
  push_cast
  ring

/-- R90: the least magnitude is that of the word 0x001. Stored exponent 0 goes with a fraction that
is not 0, and any larger one gives at least `32 * 2^-36`. -/
theorem min_magnitude_le (h : ¬ isZeroPattern w) :
    (33 : ℚ) * 2 ^ (-37 : ℤ) ≤
      (32 + ((f12Fraction w).toNat : ℚ)) * 2 ^ (((f12Stored w).toNat : ℤ) - 37) := by
  rw [isZeroPattern_iff_toNat, not_and] at h
  rcases Nat.eq_zero_or_pos (f12Stored w).toNat with hstored | hstored
  · have hfraction : (1 : ℚ) ≤ (f12Fraction w).toNat := by
      exact_mod_cast Nat.one_le_iff_ne_zero.2 (h hstored)
    rw [hstored]
    exact mul_le_mul (by linarith) (by norm_num) (by positivity) (by positivity)
  · have hfraction : (0 : ℚ) ≤ (f12Fraction w).toNat := Nat.cast_nonneg _
    calc (33 : ℚ) * 2 ^ (-37 : ℤ) ≤ 32 * 2 ^ (-36 : ℤ) := by norm_num
      _ ≤ (32 + ((f12Fraction w).toNat : ℚ)) * 2 ^ (((f12Stored w).toNat : ℤ) - 37) :=
        mul_le_mul (by linarith) (zpow_le_zpow_right₀ one_le_two (by omega)) (by positivity)
          (by positivity)

/-- R90: the greatest magnitude is that of the word 0x7FF. -/
theorem magnitude_le_max (w : Uint12) :
    (32 + ((f12Fraction w).toNat : ℚ)) * 2 ^ (((f12Stored w).toNat : ℤ) - 37) ≤
      63 * 2 ^ (26 : ℤ) := by
  have hstored := (f12Stored w).isLt
  have hfraction : ((f12Fraction w).toNat : ℚ) ≤ 31 := by
    exact_mod_cast Nat.le_of_lt_succ (f12Fraction w).isLt
  exact mul_le_mul (by linarith) (zpow_le_zpow_right₀ one_le_two (by omega)) (by positivity)
    (by norm_num)

end

/-- Settles O21: the fields that R86 gives, each shifted to its place. -/
theorem decoderValueByBits : Obligations.DecoderValueByBits := by
  intro w
  have hstored := (f12Stored w).isLt
  split
  · next h => exact f12Value_of_zero h
  · next h =>
    rw [f12Value_of_not_zero h, binary64_append_eq_or, setWidth_trailing_of_fraction,
      BitVec.setWidth_ofNat_of_le_of_lt (by decide) (by omega)]

/-- Settles O19, by whether the word is a zero pattern. -/
theorem decoderValueInExactReals : Obligations.DecoderValueInExactReals := by
  intro w
  split
  · next h => exact f12Value_of_zero h
  · next h =>
    rw [sub_sub]
    exact value_f12Value h

/-- Settles O22, from the class of a decoded value and the bounds of its magnitude. -/
theorem decodedValuesAreNormalAndDistinct : Obligations.DecodedValuesAreNormalAndDistinct := by
  refine ⟨fun w => f12Value_of_zero, fun w h => ?_, fun w w' heq => ?_⟩
  · have hB := biasedExponent_f12Value h
    refine ⟨_, _, _, classify_f12Value h, by omega, ?_⟩
    rw [decoded_magnitude_eq]
    exact ⟨min_magnitude_le h, magnitude_le_max w⟩
  · by_cases h : isZeroPattern w
    · exact .inr ⟨h, f12Value_eq_zero.1 (heq ▸ f12Value_of_zero h)⟩
    · exact .inl (eq_of_f12Value_eq heq h)

/-! ## The two operations (R91, R92) -/

/-- R41: op 5 is `F12_DEC` of the two low operand bytes, the first symbol in the upper one. -/
theorem decodeRequest_op5 (opnd : Word64) :
    decodeRequest (mkRequest 5 opnd) =
      .f12Dec (opnd.extractLsb' 8 8) (opnd.extractLsb' 0 8) := by
  rw [decodeRequest, op_mkRequest, opnd_mkRequest]
  rfl

/-- R41: op 6 is `F12_DEC_RAW` of the low twelve operand bits. -/
theorem decodeRequest_op6 (opnd : Word64) :
    decodeRequest (mkRequest 6 opnd) = .f12DecRaw (opnd.extractLsb' 0 12) := by
  rw [decodeRequest, op_mkRequest, opnd_mkRequest]
  rfl

/-- R91: `F12_DEC_RAW` answers OK with the value of its word. -/
theorem exec_f12DecRaw (w : Uint12) (s : State) :
    exec (.f12DecRaw w) s = .next (s.respond .ok (f12Value w)) := rfl

section
variable {b0 b1 : Byte} {w : Uint12} (s : State)

/-- R92: `F12_DEC` of a pair that has a value answers OK with what the value decodes to. -/
theorem exec_f12Dec_of_some (h : pairValue b0 b1 = some w) :
    exec (.f12Dec b0 b1) s = .next (s.respond .ok (f12Value w)) := by
  rw [exec, execF12Dec, h]

/-- R92: `F12_DEC` of a pair that has no value answers with a draw of 64 bits. -/
theorem exec_f12Dec_of_none (h : pairValue b0 b1 = none) :
    exec (.f12Dec b0 b1) s = .next (s.respondDraw 64) := by
  rw [exec, execF12Dec, h]

/-- R92: `F12_DEC` of the symbols that `F12_ENC` answers gives the value of the encoded word. -/
theorem exec_f12Dec_of_f12Enc (x : Word64) :
    let t := s.respond .ok ((f12Word x ++ symbolPair (f12Word x)).setWidth 64)
    exec (.f12Dec ((dataOf t.rsp).extractLsb' 8 8) ((dataOf t.rsp).extractLsb' 0 8)) t =
      .next (t.respond .ok (f12Value (f12Word x))) := by
  intro t
  rw [State.respond_rsp, dataOf_mkResponse, firstSymbol_of_wordAndSymbols,
    secondSymbol_of_wordAndSymbols]
  exact exec_f12Dec_of_some t (pairValue_symbols _)

end

/-- Settles O20: both words are zero patterns, and the pair of a word's symbols has the word as its
value. -/
theorem zeroPatternsDecodeToPlusZero : Obligations.ZeroPatternsDecodeToPlusZero := by
  intro w s hw
  have hzero : isZeroPattern w := by
    rcases hw with rfl | rfl
    · exact isZeroPattern_f12Pack_zero false
    · exact isZeroPattern_f12Pack_zero true
  have hvalue := f12Value_of_zero hzero
  have hdata : dataOf (s.respond .ok (f12Value w)).rsp = 0 := (dataOf_mkResponse _ _).trans hvalue
  exact ⟨hvalue, _, _, exec_f12DecRaw w s, hdata, statusOf_mkResponse _ _,
    exec_f12Dec_of_some s (pairValue_symbols w), hdata, statusOf_mkResponse _ _⟩

/-- Settles O23, from the answer of F12_DEC_RAW. -/
theorem f12DecRawWritesValue : Obligations.F12DecRawWritesValue := by
  intro opnd s
  exact ⟨decodeRequest_op6 opnd, _, exec_f12DecRaw _ s, rfl, statusOf_mkResponse _ _,
    dataOf_mkResponse _ _⟩

/-- Settles O24, by whether the pair of operand bytes has a value. -/
theorem f12DecWritesValueOrDraw : Obligations.F12DecWritesValueOrDraw := by
  intro opnd s
  refine ⟨decodeRequest_op5 opnd, ?_⟩
  cases h : pairValue (opnd.extractLsb' 8 8) (opnd.extractLsb' 0 8) with
  | none =>
    refine ⟨_, exec_f12Dec_of_none s h, ?_⟩
    rw [if_pos (pairValue_eq_none.1 h)]
    refine ⟨rfl, statusOf_mkResponse _ _, ?_⟩
    rw [State.respondDraw_rsp, dataOf_mkResponse, BitVec.setWidth_eq, State.draw]
  | some w =>
    obtain ⟨h0, h1, rfl⟩ := pairValue_eq_some.1 h
    refine ⟨_, exec_f12Dec_of_some s h, ?_⟩
    rw [if_neg (not_or_intro h0 h1)]
    exact ⟨rfl, statusOf_mkResponse _ _, dataOf_mkResponse _ _⟩

/-! ## The round trip (R93 to R95) -/

section
variable {neg : Bool} {sig : Nat} {exp n : Int}

/-- R74: a magnitude below a power of two has its exact exponent below the power's. -/
theorem floorLog2_lt_of_lt (hsig : sig ≠ 0) (h : (sig : ℚ) * 2 ^ exp < 2 ^ n) :
    floorLog2 sig exp < n :=
  (zpow_lt_zpow_iff_right₀ one_lt_two).1 ((zpow_floorLog2_le hsig).trans_lt h)

/-- R74: a magnitude from a power of two on has its exact exponent from the power's on. -/
theorem le_floorLog2_of_le (h : (2 : ℚ) ^ n ≤ (sig : ℚ) * 2 ^ exp) : n ≤ floorLog2 sig exp :=
  Int.lt_add_one_iff.1 ((zpow_lt_zpow_iff_right₀ one_lt_two).1 (h.trans_lt lt_zpow_floorLog2_succ))

/-- R76: truncation at the exponent `E` keeps a significand `m` from the magnitude `m * 2^(E - 5)`
on. -/
theorem le_floor_scaled {m E : ℤ} {a : ℚ} : m ≤ ⌊a * 2 ^ (5 - E)⌋ ↔ (m : ℚ) * 2 ^ (E - 5) ≤ a := by
  rw [Int.le_floor, ← neg_sub E 5, zpow_neg, ← div_eq_mul_inv, le_div_iff₀ (by positivity)]

/-- R93, R95: the encoder underflows below `33 * 2^-37`: at the least exponent the significand
truncates to 32 there, whose fraction is 0. -/
theorem isZeroPattern_f12WordOfFinite_of_lt_min (hsig : sig ≠ 0)
    (h : (sig : ℚ) * 2 ^ exp < 33 * 2 ^ (-37 : ℤ)) :
    isZeroPattern (f12WordOfFinite neg sig exp) := by
  have hE : floorLog2 sig exp < -31 := floorLog2_lt_of_lt hsig (h.trans_le (by norm_num))
  rcases lt_or_ge (floorLog2 sig exp) (-32) with hlow | hmin
  · rw [f12WordOfFinite_of_low hlow]
    exact isZeroPattern_f12Pack_zero neg
  obtain ⟨hstored, hfraction⟩ :=
    f12WordOfFinite_fields_of_mid (neg := neg) hsig hmin (by omega)
  rw [show floorLog2 sig exp = -32 by omega] at hstored hfraction
  have hfloor : ¬ 33 ≤ ⌊(sig : ℚ) * 2 ^ exp * 2 ^ (5 - -32 : ℤ)⌋ :=
    mt le_floor_scaled.1 (not_le.2 h)
  exact isZeroPattern_iff_toNat.2 ⟨by omega, by omega⟩

/-- R93, R95: the encoder saturates from `63 * 2^26` on: at the greatest exponent the significand
truncates to 63 there. -/
theorem f12WordOfFinite_of_max_le (hsig : sig ≠ 0)
    (h : 63 * 2 ^ (26 : ℤ) ≤ (sig : ℚ) * 2 ^ exp) :
    f12WordOfFinite neg sig exp = f12Pack neg 63 31 := by
  have hE : 31 ≤ floorLog2 sig exp := le_floorLog2_of_le (le_trans (by norm_num) h)
  rcases lt_or_ge 31 (floorLog2 sig exp) with hhigh | hmax
  · exact f12WordOfFinite_of_high hhigh
  obtain ⟨hstored, hfraction⟩ :=
    f12WordOfFinite_fields_of_mid (neg := neg) hsig (by omega) hmax
  rw [le_antisymm hmax hE] at hstored hfraction
  have hfloor : 63 ≤ ⌊(sig : ℚ) * 2 ^ exp * 2 ^ (5 - 31 : ℤ)⌋ := le_floor_scaled.2 h
  have hlt := (f12Fraction (f12WordOfFinite neg sig exp)).isLt
  have h63 : f12Stored (f12WordOfFinite neg sig exp) = 63 :=
    BitVec.toNat_inj.1 (by exact_mod_cast hstored)
  have h31 : f12Fraction (f12WordOfFinite neg sig exp) = 31 :=
    BitVec.toNat_inj.1 (show _ = 31 by omega)
  rw [← f12Pack_fields (f12WordOfFinite neg sig exp), f12Sign_f12WordOfFinite, h63, h31]

/-- R93: between the two bounds the decoded value is the magnitude, truncated to six significant
bits, with its sign. -/
theorem value_f12Value_f12WordOfFinite (hsig : sig ≠ 0)
    (hmin : 33 * 2 ^ (-37 : ℤ) ≤ (sig : ℚ) * 2 ^ exp)
    (hmax : (sig : ℚ) * 2 ^ exp < 63 * 2 ^ (26 : ℤ)) :
    (classify (f12Value (f12WordOfFinite neg sig exp))).value = some
      ((if neg then -1 else 1) *
        ((⌊(sig : ℚ) * 2 ^ exp * 2 ^ (5 - floorLog2 sig exp)⌋ : ℚ) *
          2 ^ (floorLog2 sig exp - 5))) := by
  have hlow : -32 ≤ floorLog2 sig exp := le_floorLog2_of_le (le_trans (by norm_num) hmin)
  have hhigh : floorLog2 sig exp < 32 := floorLog2_lt_of_lt hsig (hmax.trans_le (by norm_num))
  obtain ⟨hstored, hfraction⟩ :=
    f12WordOfFinite_fields_of_mid (neg := neg) hsig hlow (Int.le_of_lt_add_one hhigh)
  have hzero : ¬ isZeroPattern (f12WordOfFinite neg sig exp) := by
    rw [isZeroPattern_iff_toNat]
    rintro ⟨hstored0, hfraction0⟩
    have hE : floorLog2 sig exp = -32 := by omega
    rw [hE] at hfraction
    have hfloor : 33 ≤ ⌊(sig : ℚ) * 2 ^ exp * 2 ^ (5 - -32 : ℤ)⌋ := le_floor_scaled.2 hmin
    omega
  have hfloor : 32 + ((f12Fraction (f12WordOfFinite neg sig exp)).toNat : ℚ) =
      ⌊(sig : ℚ) * 2 ^ exp * 2 ^ (5 - floorLog2 sig exp)⌋ :=
    eq_sub_iff_add_eq'.1 (by exact_mod_cast hfraction)
  rw [value_f12Value hzero, f12Sign_f12WordOfFinite, hfloor, hstored,
    show floorLog2 sig exp + 32 - 37 = floorLog2 sig exp - 5 by ring]

end

/-- R93: +-4227858432 is what a saturated word decodes to. -/
theorem f12Value_f12Pack_max (neg : Bool) :
    f12Value (f12Pack neg 63 31) = if neg then 0xC1EF800000000000 else 0x41EF800000000000 := by
  cases neg <;> decide

/-- Settles O25: the decoder gets the encoder's word back from its symbols, and the two bounds of
R93 part the finite values into underflow, saturation and truncation. -/
theorem roundTripInExactReals : Obligations.RoundTripInExactReals := by
  intro x s
  refine ⟨_, _, exec_f12Enc x s, exec_f12Dec_of_f12Enc s x, statusOf_mkResponse _ _, ?_⟩
  simp only [State.respond_rsp, dataOf_mkResponse]
  cases hclass : classify x with
  | nan =>
    rw [f12Word_of_classify hclass]
    exact f12Value_of_zero (isZeroPattern_f12Pack_zero false)
  | zero neg =>
    rw [f12Word_of_classify hclass]
    exact f12Value_of_zero (isZeroPattern_f12Pack_zero false)
  | infinite neg =>
    rw [f12Word_of_classify hclass]
    exact f12Value_f12Pack_max neg
  | finite neg sig exp =>
    have hsig := sig_ne_zero_of_classify hclass
    have hword : f12Word x = f12WordOfFinite neg sig exp := f12Word_of_classify hclass
    dsimp only
    rw [hword]
    split
    · next hlow => exact f12Value_of_zero (isZeroPattern_f12WordOfFinite_of_lt_min hsig hlow)
    next hmin =>
    split
    · next hhigh => rw [f12WordOfFinite_of_max_le hsig hhigh, f12Value_f12Pack_max]
    · next hmax =>
      exact ⟨floorLog2 sig exp, zpow_floorLog2_le hsig, lt_zpow_floorLog2_succ,
        value_f12Value_f12WordOfFinite hsig (not_lt.1 hmin) (not_le.1 hmax)⟩

/-- Settles O26: the encoder recovers a word that is no zero pattern, and +0.0 is its own round
trip. -/
theorem roundTripExactOnDecodedWords : Obligations.RoundTripExactOnDecodedWords := by
  intro x
  refine ⟨fun h => ⟨f12Word x, h⟩, ?_⟩
  rintro ⟨w, rfl⟩
  by_cases h : isZeroPattern w
  · rw [f12Value_of_zero h]
    decide
  · rw [f12Word_f12Value h]

/-- Settles O27, by running the encoder and the decoder on the list. -/
theorem listedNumbersRoundTrip : Obligations.ListedNumbersRoundTrip := by
  unfold Obligations.ListedNumbersRoundTrip
  decide

end Sys2Proof.Machine
end

section
/-! SUPPORT. What a step of the machine can do, by the host step it takes, and the claims about steps
that leave the streaming calls (spec/48_host_stream_driver.md R98, R106, R109). -/

namespace Sys2Proof.Machine

/-- The buffer is kept with its length, where the first list has it. -/
def SameLength {α : Type} (old new : List (List α)) (buf : Nat) : Prop :=
  ∀ l, old[buf]? = some l → ∃ l', new[buf]? = some l' ∧ l'.length = l.length

section
variable {α : Type} {old new : List (List α)} {buf : Nat}

theorem SameLength.of_eq (h : new[buf]? = old[buf]?) : SameLength old new buf :=
  fun l hl => ⟨l, h.trans hl, rfl⟩

theorem SameLength.refl (old : List (List α)) (buf : Nat) : SameLength old old buf := .of_eq rfl

theorem SameLength.trans {mid : List (List α)} (h : SameLength old mid buf)
    (h' : SameLength mid new buf) : SameLength old new buf := by
  intro l hl
  obtain ⟨l1, hl1, hlen1⟩ := h l hl
  obtain ⟨l2, hl2, hlen2⟩ := h' l1 hl1
  exact ⟨l2, hl2, hlen2.trans hlen1⟩

/-- A new buffer leaves the ones before it. -/
theorem SameLength.append (old more : List (List α)) (buf : Nat) :
    SameLength old (old ++ more) buf := by
  intro l hl
  obtain ⟨hbuf, -⟩ := List.getElem?_eq_some_iff.1 hl
  exact ⟨l, by rw [List.getElem?_append_left hbuf, hl], rfl⟩

/-- A write keeps the length of every buffer, if it keeps that of the one it writes. -/
theorem SameLength.set {k : Nat} {l l' : List α} (hk : old[k]? = some l)
    (hlen : l'.length = l.length) (buf : Nat) : SameLength old (old.set k l') buf := by
  by_cases h : k = buf
  · subst h
    obtain ⟨hk', -⟩ := List.getElem?_eq_some_iff.1 hk
    intro m hm
    rw [hk, Option.some.injEq] at hm
    exact ⟨l', List.getElem?_set_self hk', hm ▸ hlen⟩
  · exact .of_eq (List.getElem?_set_ne h)

end

/-- What a host step that does not concern a streaming call keeps (R106): the calls, the mark, and
every buffer with its length. -/
structure State.KeepsCalls (s t : State) : Prop where
  calls : t.calls = s.calls
  faulted : t.faulted = s.faulted
  bytes : ∀ buf, SameLength s.byteBufs t.byteBufs buf
  nums : ∀ buf, SameLength s.numBufs t.numBufs buf

section
variable {s t u : State}

theorem State.KeepsCalls.trans (h : s.KeepsCalls t) (h' : t.KeepsCalls u) : s.KeepsCalls u where
  calls := h'.calls.trans h.calls
  faulted := h'.faulted.trans h.faulted
  bytes buf := (h.bytes buf).trans (h'.bytes buf)
  nums buf := (h.nums buf).trans (h'.nums buf)

theorem State.keepsCalls_withScript (s : State) (rest : List HostStep) :
    s.KeepsCalls (s.withScript rest) := ⟨rfl, rfl, .refl _, .refl _⟩

theorem State.keepsCalls_newBytes (s : State) (bytes : List Byte) :
    s.KeepsCalls (s.withBytes (s.byteBufs ++ [bytes])) := ⟨rfl, rfl, .append _ _, .refl _⟩

theorem State.keepsCalls_newNums (s : State) (nums : List Word64) :
    s.KeepsCalls (s.withNums (s.numBufs ++ [nums])) := ⟨rfl, rfl, .refl _, .append _ _⟩

/-- A request concerns the buses and the draws only (R23). -/
theorem keepsCalls_of_issue {w : Request} (h : issue w s = .next t) : s.KeepsCalls t := by
  rw [issue_frame h]
  exact ⟨rfl, rfl, .refl _, .refl _⟩

theorem keepsCalls_of_hostByte {buf a : Nat} {r : Byte × State} (h : s.hostByte buf a = some r) :
    s.KeepsCalls r.2 := by
  obtain ⟨n, hn⟩ := State.hostByte_frame h
  rw [hn]
  exact ⟨rfl, rfl, .refl _, .refl _⟩

theorem keepsCalls_of_hostNum {buf i : Nat} {r : Word64 × State} (h : s.hostNum buf i = some r) :
    s.KeepsCalls r.2 := by
  obtain ⟨n, hn⟩ := State.hostNum_frame h
  rw [hn]
  exact ⟨rfl, rfl, .refl _, .refl _⟩

theorem keepsCalls_of_putByte {buf a : Nat} {v : Byte} (h : s.putByte buf a v = some t) :
    s.KeepsCalls t := by
  obtain ⟨bytes, hbytes, -, rfl⟩ := State.putByte_eq_some.1 h
  exact ⟨rfl, rfl, .set hbytes (by simp), .refl _⟩

theorem keepsCalls_of_putSlot {buf o : Nat} {data : Word64} (h : s.putSlot buf o data = some t) :
    s.KeepsCalls t := by
  obtain ⟨bytes, hbytes, -, rfl⟩ := State.putSlot_eq_some.1 h
  exact ⟨rfl, rfl, .set hbytes (by simp), .refl _⟩

theorem keepsCalls_of_putNum {buf i : Nat} {v : Word64} (h : s.putNum buf i v = some t) :
    s.KeepsCalls t := by
  obtain ⟨nums, hnums, -, rfl⟩ := State.putNum_eq_some.1 h
  exact ⟨rfl, rfl, .refl _, .set hnums (by simp)⟩

/-- A step is the next thing on the host's list, done in an unmarked state (R14). -/
theorem step_eq_next :
    step s = .next t ↔
      s.faulted = false ∧ ∃ h rest, s.script = h :: rest ∧ hostStep h rest s = .next t := by
  unfold step hostNext
  cases s.faulted <;> cases s.script <;> simp

/-- All that a host step can do to the streaming calls: keep them all, begin one, write the progress
of one, or resume one (R106). -/
theorem hostStep_cases {h : HostStep} {rest : List HostStep} (hstep : hostStep h rest s = .next t) :
    s.KeepsCalls t ∨
    (∃ input skip suspend, h = .startDecode input skip suspend ∧
      startDecode input skip suspend (s.withScript rest) = .next t) ∨
    (∃ input suspend, h = .startEncode input suspend ∧
      startEncode input suspend (s.withScript rest) = .next t) ∨
    (∃ k processed total, h = .writeProgress k processed total ∧
      writeProgress k processed total (s.withScript rest) = .next t) ∨
    (∃ k, h = .resume k ∧ resumeCall k rest s = .next t) := by
  have hscript := s.keepsCalls_withScript rest
  cases h with
  | startDecode input skip suspend => exact .inr (.inl ⟨_, _, _, rfl, hstep⟩)
  | startEncode input suspend => exact .inr (.inr (.inl ⟨_, _, rfl, hstep⟩))
  | writeProgress k processed total => exact .inr (.inr (.inr (.inl ⟨_, _, _, rfl, hstep⟩)))
  | resume k => exact .inr (.inr (.inr (.inr ⟨_, rfl, hstep⟩)))
  | request w => exact .inl (hscript.trans (keepsCalls_of_issue hstep))
  | newBytes bytes =>
    cases hstep
    exact .inl (hscript.trans (State.keepsCalls_newBytes _ _))
  | newNums nums =>
    cases hstep
    exact .inl (hscript.trans (State.keepsCalls_newNums _ _))
  | newText strings =>
    cases hstep
    exact .inl (hscript.trans (State.keepsCalls_newBytes _ _))
  | memWrite buf addr v =>
    obtain ⟨-, hput⟩ := State.hostWriteBytes_eq_next.1 hstep
    exact .inl (hscript.trans (keepsCalls_of_putByte hput))
  | takeByte buf addr =>
    obtain ⟨-, hput⟩ := State.hostWriteBytes_eq_next.1 hstep
    exact .inl (hscript.trans (keepsCalls_of_putByte hput))
  | takePair buf offset =>
    obtain ⟨-, hput⟩ := State.hostWriteBytes_eq_next.1 hstep
    exact .inl (hscript.trans (keepsCalls_of_putSlot hput))
  | numWrite buf index v =>
    obtain ⟨-, hput⟩ := State.hostWriteNums_eq_next.1 hstep
    exact .inl (hscript.trans (keepsCalls_of_putNum hput))
  | takeNum buf index =>
    obtain ⟨-, hput⟩ := State.hostWriteNums_eq_next.1 hstep
    exact .inl (hscript.trans (keepsCalls_of_putNum hput))
  | sendByte buf addr =>
    obtain ⟨r, hread, hissue⟩ := orRefuse_eq_next.1 hstep
    exact .inl ((hscript.trans (keepsCalls_of_hostByte hread)).trans
      (keepsCalls_of_issue hissue))
  | sendPair op buf addr0 addr1 =>
    obtain ⟨r0, hread0, hnext⟩ := orRefuse_eq_next.1 hstep
    obtain ⟨r1, hread1, hissue⟩ := orRefuse_eq_next.1 hnext
    exact .inl (((hscript.trans (keepsCalls_of_hostByte hread0)).trans
      (keepsCalls_of_hostByte hread1)).trans (keepsCalls_of_issue hissue))
  | sendNum buf index =>
    obtain ⟨r, hread, hissue⟩ := orRefuse_eq_next.1 hstep
    exact .inl ((hscript.trans (keepsCalls_of_hostNum hread)).trans
      (keepsCalls_of_issue hissue))

end

/-- Settles O58: a host step that is not one of the four about calls keeps the calls. -/
theorem otherStepsLeaveCalls : Obligations.OtherStepsLeaveCalls := by
  intro s t h rest hscript hstep hother
  obtain ⟨-, h', rest', hscript', hhost⟩ := step_eq_next.1 hstep
  obtain ⟨rfl, rfl⟩ := List.cons.inj (hscript.symm.trans hscript')
  obtain hkeeps | ⟨_, _, _, rfl, -⟩ | ⟨_, _, rfl, -⟩ | ⟨_, _, _, rfl, -⟩ | ⟨_, rfl, -⟩ :=
    hostStep_cases hhost
  · exact hkeeps.calls
  · exact hother.elim
  · exact hother.elim
  · exact hother.elim
  · exact hother.elim

/-- Settles O48: the buffer is the joined codes, each mapped to its byte. -/
theorem textIsJoined : Obligations.TextIsJoined := by
  intro s strings rest hfaulted hscript
  refine ⟨_, joinText strings, step_of_script hfaulted hscript, rfl, List.length_map _, ?_⟩
  intro a code hcode
  simp only [joinText, List.getElem?_map, hcode, Option.map_some, Option.some.injEq]
  split
  · next hlarge => rw [if_neg (by omega)]; rfl
  · next hbyte => rw [if_pos (by omega), BitVec.toNat_ofNat, Nat.mod_eq_of_lt (by omega)]

section
variable {s : State} {k buf : Nat} {c : Call}

/-- R109: the byte buffer that an unfinished call reads or fills is held. -/
theorem State.bytesHeld_of_call (hk : s.calls[k]? = some c) (hfinished : c.finished = false)
    (hbuf : (c.dir = .decode ∧ c.input = buf) ∨ (c.dir = .encode ∧ c.output = buf)) :
    s.bytesHeld buf = true := by
  have hmem := List.mem_of_getElem? hk
  rw [State.bytesHeld, State.bytesFilling, Bool.or_eq_true, List.any_eq_true, List.any_eq_true]
  obtain ⟨hdir, rfl⟩ | ⟨hdir, rfl⟩ := hbuf
  · exact .inl ⟨c, hmem, by simp [Call.readsBytes, hfinished, hdir]⟩
  · exact .inr ⟨c, hmem, by simp [Call.fillsBytes, hfinished, hdir]⟩

/-- R109: the number buffer that an unfinished call reads or fills is held. -/
theorem State.numsHeld_of_call (hk : s.calls[k]? = some c) (hfinished : c.finished = false)
    (hbuf : (c.dir = .encode ∧ c.input = buf) ∨ (c.dir = .decode ∧ c.output = buf)) :
    s.numsHeld buf = true := by
  have hmem := List.mem_of_getElem? hk
  rw [State.numsHeld, State.numsFilling, Bool.or_eq_true, List.any_eq_true, List.any_eq_true]
  obtain ⟨hdir, rfl⟩ | ⟨hdir, rfl⟩ := hbuf
  · exact .inl ⟨c, hmem, by simp [Call.readsNums, hfinished, hdir]⟩
  · exact .inr ⟨c, hmem, by simp [Call.fillsNums, hfinished, hdir]⟩

/-- R109: a host write to a held byte buffer is refused. -/
theorem State.hostWriteBytes_of_held {put : Option State} (hheld : s.bytesHeld buf = true) :
    s.hostWriteBytes buf put = .refused .heldByCall := by
  simp [State.hostWriteBytes, hheld]

/-- R109: a host write to a held number buffer is refused. -/
theorem State.hostWriteNums_of_held {put : Option State} (hheld : s.numsHeld buf = true) :
    s.hostWriteNums buf put = .refused .heldByCall := by
  simp [State.hostWriteNums, hheld]

end

/-- Settles O60: each of the six steps that write asks first whether an unfinished call holds what
it writes. -/
theorem suspendedCallsAreNotWritten : Obligations.SuspendedCallsAreNotWritten := by
  intro s h rest k c hfaulted hscript hk hfinished hwrites
  rw [step_of_script hfaulted hscript]
  have hk' : (s.withScript rest).calls[k]? = some c := hk
  cases h with
  | memWrite buf addr v =>
    exact State.hostWriteBytes_of_held (State.bytesHeld_of_call hk' hfinished hwrites)
  | takeByte buf addr =>
    exact State.hostWriteBytes_of_held (State.bytesHeld_of_call hk' hfinished hwrites)
  | takePair buf offset =>
    exact State.hostWriteBytes_of_held (State.bytesHeld_of_call hk' hfinished hwrites)
  | numWrite buf index v =>
    exact State.hostWriteNums_of_held (State.numsHeld_of_call hk' hfinished hwrites)
  | takeNum buf index =>
    exact State.hostWriteNums_of_held (State.numsHeld_of_call hk' hfinished hwrites)
  | writeProgress j processed total =>
    obtain rfl : j = k := hwrites
    simp [hostStep, writeProgress, hk, hfinished]
  | request | newBytes | newNums | newText | sendByte | sendPair | sendNum | startDecode
  | startEncode | resume => exact hwrites.elim

end Sys2Proof.Machine
end

section
/-! SUPPORT. The start of a streaming call and each of its driver steps, as equations, with the claims
about them (spec/48_host_stream_driver.md R97 to R103). -/

namespace Sys2Proof.Machine

/-! ## Starts (R97) -/

/-- Settles O49: without a line to skip, the empty output buffer is sized at once. -/
theorem decodeCallStarts : Obligations.DecodeCallStarts := by
  intro s input skip suspend rest bytes hfaulted hscript hfilling hinput
  rw [step_of_script hfaulted hscript]
  have hfilling' : (s.withScript rest).bytesFilling input = false := hfilling
  split
  · next hzero => simp [hostStep, startDecode, hzero]
  · next hpos =>
    simp only [hostStep, startDecode, if_neg hpos, hfilling', State.withScript_byteBufs, hinput,
      orRefuse_some, Bool.false_eq_true, if_false]
    obtain rfl | hskip := Nat.eq_zero_or_pos skip
    · refine ⟨_, freshNums s.draws (bytes.length / 2), if_pos rfl, ?_, by simp⟩
      simp [State.sizeOutput, State.withNums, State.withCalls, State.withScript, State.drew,
        Call.start]
    · refine ⟨_, [], if_neg hskip.ne', ?_, by simp [hskip]⟩
      simp [State.withNums, State.withCalls, State.withScript, Call.start]

/-- Settles O50, by the equation of a start. -/
theorem encodeCallStarts : Obligations.EncodeCallStarts := by
  intro s input suspend rest nums hfaulted hscript hfilling hinput
  rw [step_of_script hfaulted hscript]
  have hfilling' : (s.withScript rest).numsFilling input = false := hfilling
  split
  · next hzero => simp [hostStep, startEncode, hzero]
  · next hpos =>
    simp only [hostStep, startEncode, if_neg hpos, hfilling', State.withScript_numBufs, hinput,
      orRefuse_some, Bool.false_eq_true, if_false]
    refine ⟨_, freshBytes s.draws (2 * nums.length), rfl, ?_, length_freshBytes _ _⟩
    simp [State.withBytes, State.withCalls, State.withScript, State.drew, Call.start]

/-! ## The SKIP phase (R99, R100) -/

section
variable {c : Call} {s : State} {b : Byte}

/-- R99: when the byte at `pos` begins a line break of two bytes. -/
theorem Call.atCrLf_iff (hb : s.byteAt c.input c.pos = some b) :
    c.atCrLf s = true ↔
      b = 0x0D ∧ c.pos + 1 < c.total ∧ s.byteAt c.input (c.pos + 1) = some 0x0A := by
  simp [Call.atCrLf, hb, byteCR, byteLF, and_assoc]

/-- R99: with a byte at `pos` a SKIP step takes one piece. -/
theorem skipStep_of_byte (hb : s.byteAt c.input c.pos = some b) :
    skipStep c s =
      .next (skipPiece (if c.atCrLf s then 2 else 1) (b == byteCR || b == byteLF) c s) := by
  rw [skipStep, hb, orRefuse_some]

/-- Sizing an output gives a buffer of half as many elements as bytes remain (R100). -/
theorem State.length_of_sizeOutput {output remaining : Nat} {out : List Word64}
    (hout : (s.sizeOutput output remaining).numBufs[output]? = some out) :
    out.length = remaining / 2 := by
  obtain ⟨hlt, rfl⟩ := List.getElem?_eq_some_iff.1 hout
  simp

/-- R100: a piece that reaches the last line break enters the DATA phase and sizes the output. -/
theorem skipPiece_of_last {n : Nat} {isBreak : Bool}
    (hlast : (if isBreak then c.lines + 1 else c.lines) = c.skipLineCount) :
    skipPiece n isBreak c s =
      ({ c.advance n with lines := c.skipLineCount, phase := .data },
        s.sizeOutput c.output (c.total - (c.pos + n))) := by
  simp [skipPiece, hlast, Call.advance]

/-- R99: any other piece changes the call only. -/
theorem skipPiece_of_not_last {n : Nat} {isBreak : Bool}
    (hlast : (if isBreak then c.lines + 1 else c.lines) ≠ c.skipLineCount) :
    skipPiece n isBreak c s =
      ({ c.advance n with lines := if isBreak then c.lines + 1 else c.lines }, s) := by
  simp [skipPiece, hlast, Call.advance]

end

/-- Settles O51, by whether the piece ends in the last line break. -/
theorem skipStepCountsLines : Obligations.SkipStepCountsLines := by
  intro c s b hdir hphase hb n l
  have hstep : driverStep c s = .next (skipPiece n (b == byteCR || b == byteLF) c s) := by
    simp only [driverStep, hdir, hphase, skipStep_of_byte hb, Call.atCrLf_iff hb, n]
  have hlines : (if (b == byteCR || b == byteLF) = true then c.lines + 1 else c.lines) = l := by
    simp [byteCR, byteLF, l]
  rw [hstep]
  by_cases hlast : l = c.skipLineCount
  · rw [skipPiece_of_last (hlines.trans hlast)]
    refine ⟨s.sizeOutput c.output (c.total - (c.pos + n)), by simp [hlast, Call.advance], ?_⟩
    rw [if_pos hlast]
    refine ⟨rfl, fun buf hbuf => ?_, fun out hout => State.length_of_sizeOutput hout⟩
    simp [List.getElem?_set_ne hbuf.symm]
  · rw [skipPiece_of_not_last (hlines ▸ hlast), hlines]
    exact ⟨s, by simp [hlast, hphase, Call.advance], by rw [if_neg hlast]⟩

/-! ## The DATA phase (R101) -/

/-- The state after the driver has asked the block for the validity of a byte. -/
def State.asked (b : Byte) (s : State) : State :=
  (s.present (encode (.b64Dec b))).respond (statusOfValue (decAt b)) ((decAt b).setWidth 64)

section
variable {c : Call} {s : State} {b : Byte}

/-- R63: the driver's request for a byte's validity is never refused. -/
theorem issue_b64Dec (b : Byte) (s : State) :
    issue (encode (.b64Dec b)) s = .next (s.asked b) := issue_encode _ _

/-- R63: the answer is INVALID_SYMBOL exactly for an INVALID entry of the table. -/
theorem State.asked_invalid_iff :
    statusOf (s.asked b).rsp = Status.invalidSymbol.code ↔ decAt b = 255 := by
  rw [State.asked, State.respond_rsp, statusOf_mkResponse, statusOfValue_code_eq]
  split <;> simp_all [Status.code]

/-- R101: an invalid byte is skipped but counted. -/
theorem dataStep_of_invalid (hb : s.byteAt c.input c.pos = some b) (hinvalid : decAt b = 255) :
    dataStep c s = .next (c.advance 1, s.asked b) := by
  simp only [dataStep, hb, orRefuse_some, issue_b64Dec, andThen_next,
    if_pos (State.asked_invalid_iff.2 hinvalid)]

/-- R101: a valid byte with none held is held. -/
theorem dataStep_of_first (hb : s.byteAt c.input c.pos = some b) (hvalid : decAt b ≠ 255)
    (hpending : c.pending = none) :
    dataStep c s = .next ({ c.advance 1 with pending := some b }, s.asked b) := by
  simp only [dataStep, hb, orRefuse_some, issue_b64Dec, andThen_next,
    if_neg (mt State.asked_invalid_iff.1 hvalid), hpending]

/-- R101: a valid byte with one held completes a unit. -/
theorem dataStep_of_second {first : Byte} (hb : s.byteAt c.input c.pos = some b)
    (hvalid : decAt b ≠ 255) (hpending : c.pending = some first) :
    dataStep c s = decodeUnit first b (c.advance 1) (s.asked b) := by
  simp only [dataStep, hb, orRefuse_some, issue_b64Dec, andThen_next,
    if_neg (mt State.asked_invalid_iff.1 hvalid), hpending]

/-- R92: F12_DEC is never refused, and answers the value of two valid symbols. -/
theorem issue_f12Dec (b0 b1 : Byte) (s : State) :
    ∃ u, issue (encode (.f12Dec b0 b1)) s = .next u ∧
      (decAt b0 ≠ 255 → decAt b1 ≠ 255 →
        dataOf u.rsp = f12Value ((decAt b0).extractLsb' 0 6 ++ (decAt b1).extractLsb' 0 6) ∧
        u = { s with req := u.req, rsp := u.rsp }) := by
  rw [issue_encode]
  cases hpair : pairValue b0 b1 with
  | none =>
    exact ⟨_, exec_f12Dec_of_none _ hpair, fun h0 h1 =>
      absurd (pairValue_eq_none.1 hpair) (not_or_intro h0 h1)⟩
  | some w =>
    obtain ⟨-, -, rfl⟩ := pairValue_eq_some.1 hpair
    exact ⟨_, exec_f12Dec_of_some _ hpair, fun _ _ => ⟨dataOf_mkResponse _ _, rfl⟩⟩

/-- R101: where the output has room a unit is completed; two valid symbols give its value. -/
theorem decodeUnit_of_room {first : Byte} {out : List Word64}
    (hout : s.numBufs[c.output]? = some out) (hroom : c.outCount < out.length) :
    ∃ u, decodeUnit first b c s =
        .next ({ c with pending := none, outCount := c.outCount + 1 }, u) ∧
      (decAt first ≠ 255 → decAt b ≠ 255 →
        u = { s with
          req := u.req, rsp := u.rsp,
          numBufs := s.numBufs.set c.output (out.set c.outCount
            (f12Value ((decAt first).extractLsb' 0 6 ++ (decAt b).extractLsb' 0 6))) }) := by
  obtain ⟨u, hissue, hvalue⟩ := issue_f12Dec first b s
  have hnums : u.numBufs = s.numBufs := by rw [issue_frame hissue]
  have hput := State.putNum_eq_some (v := dataOf u.rsp).2 ⟨out, hnums ▸ hout, hroom, rfl⟩
  refine ⟨_, decodeUnit_eq_next.2 ⟨u, _, hissue, hput, rfl⟩, fun h0 h1 => ?_⟩
  obtain ⟨hdata, hu⟩ := hvalue h0 h1
  rw [hdata, hnums, hu]
  rfl

end

/-- Settles O52, by whether the byte is valid and whether a symbol is held. -/
theorem dataStepDecodesUnits : Obligations.DataStepDecodesUnits := by
  intro c s b hdir hphase hb c1
  have hstep : driverStep c s = dataStep c s := by simp only [driverStep, hdir, hphase]
  rw [hstep]
  split
  · next hinvalid => exact ⟨_, dataStep_of_invalid hb hinvalid, rfl⟩
  · next hvalid =>
    split
    · next hpending => exact ⟨_, dataStep_of_first hb hvalid hpending, rfl⟩
    · next first hpending =>
      intro out hout hroom
      rw [dataStep_of_second hb hvalid hpending]
      obtain ⟨u, hunit, hvalue⟩ :=
        decodeUnit_of_room (c := c.advance 1) (s := s.asked b) (first := first) (b := b) hout hroom
      exact ⟨u, hunit, fun hfirst => hvalue hfirst hvalid⟩

/-! ## ENCODE (R103) -/

/-- R70: F12_ENC answers the Float12 word above its two symbols. -/
theorem issue_f12Enc (x : Word64) (s : State) :
    issue (encode (.f12Enc x)) s = .next ((s.present (encode (.f12Enc x))).respond .ok
      ((f12Word x ++ symbolPair (f12Word x)).setWidth 64)) := issue_encode _ _

/-- R103: with a number at `pos` and its slot inside the output, an ENCODE step writes the slot. -/
theorem encodeStep_of_room {c : Call} {s : State} {x : Word64} {out : List Byte}
    (hx : s.numAt c.input c.pos = some x) (hout : s.byteBufs[c.output]? = some out)
    (hroom : 2 * c.pos + 1 < out.length) :
    ∃ u, encodeStep c s = .next (c.advance 1, u) ∧
      u = { s with
        req := u.req, rsp := u.rsp,
        byteBufs := s.byteBufs.set c.output
          ((out.set (2 * c.pos) (encAt ((f12Word x).extractLsb' 6 6))).set (2 * c.pos + 1)
            (encAt ((f12Word x).extractLsb' 0 6))) } := by
  refine ⟨_, encodeStep_eq_next.2 ⟨x, _, _, hx, issue_f12Enc x s,
    State.putSlot_eq_some.2 ⟨out, hout, hroom, rfl⟩, rfl⟩, ?_⟩
  simp only [State.respond_rsp, dataOf_mkResponse, firstSymbol_of_wordAndSymbols,
    secondSymbol_of_wordAndSymbols]
  rfl

/-- Settles O53, by the equation of an ENCODE step. -/
theorem encodeStepWritesSlot : Obligations.EncodeStepWritesSlot := by
  intro c s x out hdir hx hout hroom
  obtain ⟨u, hstep, hu⟩ := encodeStep_of_room hx hout hroom
  have hencode : driverStep c s = encodeStep c s := by simp only [driverStep, hdir]
  exact ⟨u, hencode.trans hstep, hu⟩

end Sys2Proof.Machine
end

section
/-! SUPPORT. What a step of a `resume()` reaches and how it returns, with the claims about yields
(spec/48_host_stream_driver.md R101 to R105). -/

namespace Sys2Proof.Machine

/-- What a step of a `resume()` reaches before it returns or goes on: one driver step further where
input is left, the same call in the same state where none is (R105). -/
def Call.Reaches (c : Call) (s : State) (d : Call) (u : State) : Prop :=
  if c.pos < c.total then driverStep c s = .next (d, u) else d = c ∧ u = s

section
variable {c d : Call} {s u t : State} {k : Nat} {rest : List HostStep}

theorem Call.reaches_of_input (hinput : c.pos < c.total) :
    c.Reaches s d u ↔ driverStep c s = .next (d, u) := by rw [Call.Reaches, if_pos hinput]

theorem Call.reaches_of_no_input (hinput : ¬ c.pos < c.total) :
    c.Reaches s d u ↔ d = c ∧ u = s := by rw [Call.Reaches, if_neg hinput]

/-- How the call and the state that a step of a `resume()` reaches differ from those it began with: as
after a driver step, or not at all (R96). -/
structure ReachFrame (c d : Call) (s u : State) : Prop where
  call : d = { c with
    pos := d.pos, processed := c.processed + (d.pos - c.pos),
    sinceYield := c.sinceYield + (d.pos - c.pos), phase := d.phase, lines := d.lines,
    pending := d.pending, outCount := d.outCount }
  forward : c.pos ≤ d.pos
  state : u = { s with
    req := u.req, rsp := u.rsp, draws := u.draws, byteBufs := u.byteBufs, numBufs := u.numBufs }
  buffers : c.OnlyOutputChanges s u

theorem DriverFrame.reachFrame (h : DriverFrame c d s u) : ReachFrame c d s u :=
  ⟨h.call, h.consumes.le, h.state, h.buffers⟩

theorem Call.Reaches.frame (h : c.Reaches s d u) : ReachFrame c d s u := by
  by_cases hinput : c.pos < c.total
  · exact (driverStep_frame ((Call.reaches_of_input hinput).1 h)).reachFrame
  · obtain ⟨rfl, rfl⟩ := (Call.reaches_of_no_input hinput).1 h
    exact ⟨by simp, le_rfl, rfl, d.OnlyOutputChanges_refl u⟩

namespace ReachFrame
variable (h : ReachFrame c d s u)
include h

theorem dir : d.dir = c.dir := by rw [h.call]
theorem input : d.input = c.input := by rw [h.call]
theorem total : d.total = c.total := by rw [h.call]
theorem output : d.output = c.output := by rw [h.call]
theorem suspendCount : d.suspendCount = c.suspendCount := by rw [h.call]
theorem returned : d.returned = c.returned := by rw [h.call]
theorem processed : d.processed = c.processed + (d.pos - c.pos) := congrArg Call.processed h.call
theorem sinceYield : d.sinceYield = c.sinceYield + (d.pos - c.pos) :=
  congrArg Call.sinceYield h.call
theorem finished : d.finished = c.finished := by rw [Call.finished, Call.finished, h.returned]
theorem calls : u.calls = s.calls := by rw [h.state]
theorem script : u.script = s.script := by rw [h.state]
theorem faulted : u.faulted = s.faulted := by rw [h.state]

end ReachFrame

/-- The three ways in which a step of a `resume()` of call `k` leaves the call `d` and the state `u`
that it has reached: a yield, no return, or the end (R104, R105). -/
inductive Leaves (k : Nat) (rest : List HostStep) (c d : Call) (u : State) : State → Prop
  | yields (hinput : c.pos < c.total) (hsuspends : d.suspends = true) :
    Leaves k rest c d u ((u.withCalls (u.calls.set k d.yield)).withScript rest)
  | goesOn (hinput : c.pos < c.total) (hsuspends : ¬ d.suspends = true) (hmore : d.pos < d.total) :
    Leaves k rest c d u (u.withCalls (u.calls.set k d))
  | ends (hsuspends : c.pos < c.total → ¬ d.suspends = true) (hmore : ¬ d.pos < d.total) :
    Leaves k rest c d u (endCall k d rest u)

/-- What follows a driver step. -/
theorem leaves_afterStep (hinput : c.pos < c.total) :
    Leaves k rest c d u (afterStep k d rest u) := by
  unfold afterStep
  split
  · next hsuspends => exact .yields hinput hsuspends
  · next hsuspends =>
    split
    · next hmore => exact .goesOn hinput hsuspends hmore
    · next hmore => exact .ends (fun _ => hsuspends) hmore

/-- A step of a `resume()` is of an unfinished call; it reaches a call and a state, and leaves
them in one of the three ways. -/
theorem resumeCall_cases (h : resumeCall k rest s = .next t) :
    ∃ c d u, s.calls[k]? = some c ∧ c.finished = false ∧ c.Reaches s d u ∧
      Leaves k rest c d u t := by
  obtain ⟨c, hk, hfinished, ⟨hinput, d, u, hstep, rfl⟩ | ⟨hinput, rfl⟩⟩ := resumeCall_eq_next.1 h
  · exact ⟨c, d, u, hk, hfinished, (Call.reaches_of_input hinput).2 hstep, leaves_afterStep hinput⟩
  · exact ⟨c, c, s, hk, hfinished, (Call.reaches_of_no_input hinput.not_gt).2 ⟨rfl, rfl⟩,
      .ends (fun h => (hinput.not_gt h).elim) hinput.not_gt⟩

/-- The same, of a step whose next thing to do is the resume. -/
theorem step_resume_cases (hscript : s.script = .resume k :: rest) (hstep : step s = .next t) :
    s.faulted = false ∧ ∃ c d u, s.calls[k]? = some c ∧ c.finished = false ∧ c.Reaches s d u ∧
      Leaves k rest c d u t := by
  obtain ⟨hfaulted, h, rest', hscript', hhost⟩ := step_eq_next.1 hstep
  obtain ⟨rfl, rfl⟩ := List.cons.inj (hscript.symm.trans hscript')
  exact ⟨hfaulted, resumeCall_cases hhost⟩

/-- A resume of an unfinished call with input left is a driver step and what follows it. -/
theorem step_of_resume (hfaulted : s.faulted = false) (hscript : s.script = .resume k :: rest)
    (hk : s.calls[k]? = some c) (hfinished : c.finished = false) (hinput : c.pos < c.total)
    (hstep : driverStep c s = .next (d, u)) : step s = .next (afterStep k d rest u) := by
  rw [step_of_script hfaulted hscript]
  exact resumeCall_eq_next.2 ⟨c, hk, hfinished, .inl ⟨hinput, d, u, hstep, rfl⟩⟩

/-- A resume of an unfinished call with no input left is its end (R105). -/
theorem step_of_resume_no_input (hfaulted : s.faulted = false)
    (hscript : s.script = .resume k :: rest) (hk : s.calls[k]? = some c)
    (hfinished : c.finished = false) (hinput : ¬ c.pos < c.total) :
    step s = .next (endCall k c rest s) := by
  rw [step_of_script hfaulted hscript]
  exact resumeCall_eq_next.2 ⟨c, hk, hfinished, .inr ⟨not_lt.1 hinput, rfl⟩⟩

/-- The end writes number buffers, the calls and the host's list. -/
theorem endCall_eq (k : Nat) (c : Call) (rest : List HostStep) (s : State) :
    endCall k c rest s = { s with
      script := rest, numBufs := (s.trimOutput c).numBufs, calls := s.calls.set k c.finish } := by
  rw [endCall, (State.trimOutput_frame c s).1]
  rfl

@[simp] theorem Call.finished_yield (c : Call) : c.yield.finished = false := rfl
@[simp] theorem Call.finished_finish (c : Call) : c.finish.finished = true := rfl

/-- The call that was set is the one found. -/
theorem calls_set_self {cs : List Call} (hk : cs[k]? = some c) (d : Call) :
    (cs.set k d)[k]? = some d :=
  List.getElem?_set_self (List.getElem?_eq_some_iff.1 hk).1

/-- R104: of the three ways to leave a resume only a yield returns Yielded. -/
theorem yielded_of_resume {c' : Call} {p q : Nat} (hscript : s.script = .resume k :: rest)
    (hstep : step s = .next t) (hk : s.calls[k]? = some c) (hk' : t.calls[k]? = some c')
    (hreturned : c'.returned = .yielded p q :: c.returned) :
    c'.pending = none ∧ p = c'.processed ∧ q = c'.total ∧ c'.sinceYield = 0 ∧ t.script = rest ∧
      c.suspendCount ≤ c.sinceYield + (c'.pos - c.pos) := by
  obtain ⟨-, c₀, d, u, hk₀, -, hreach, hleaves⟩ := step_resume_cases hscript hstep
  obtain rfl : c = c₀ := Option.some.inj (hk.symm.trans hk₀)
  have hframe := hreach.frame
  have hku : u.calls[k]? = some c := by rw [hframe.calls, hk]
  cases hleaves with
  | yields _ hsuspends =>
    obtain rfl : d.yield = c' := Option.some.inj ((calls_set_self hku _).symm.trans hk')
    obtain ⟨hpending, hcount⟩ := Call.suspends_eq_true.1 hsuspends
    obtain ⟨⟨rfl, rfl⟩, -⟩ : (d.processed = p ∧ d.total = q) ∧ d.returned = c.returned := by
      simpa [Call.yield] using hreturned
    rw [hframe.suspendCount, hframe.sinceYield] at hcount
    exact ⟨hpending, rfl, rfl, rfl, rfl, hcount⟩
  | goesOn =>
    obtain rfl : d = c' := Option.some.inj ((calls_set_self hku _).symm.trans hk')
    rw [hframe.returned] at hreturned
    exact absurd hreturned (List.cons_ne_self _ _).symm
  | ends =>
    rw [endCall_eq] at hk'
    obtain rfl : d.finish = c' := Option.some.inj ((calls_set_self hku _).symm.trans hk')
    simp [Call.finish] at hreturned

/-- R104, R105: what follows a driver step is decided by the test for a yield and then by the test
for the end of the input. -/
theorem returned_of_afterStep (hdriver : driverStep c s = .next (d, u)) (hinput : c.pos < c.total)
    (hk : s.calls[k]? = some c) :
    ∃ c', (afterStep k d rest u).calls[k]? = some c' ∧
      if d.pending = none ∧ c.suspendCount ≤ c.sinceYield + (d.pos - c.pos) then
        c'.returned = .yielded d.processed d.total :: c.returned ∧
          (afterStep k d rest u).script = rest
      else if d.pos = c.total then
        c'.returned = .done :: c.returned ∧ (afterStep k d rest u).script = rest
      else c'.returned = c.returned ∧ (afterStep k d rest u).script = s.script := by
  have hframe := driverStep_frame hdriver
  have hreach := hframe.reachFrame
  have hku : u.calls[k]? = some c := by rw [hreach.calls, hk]
  have hsuspends : d.pending = none ∧ c.suspendCount ≤ c.sinceYield + (d.pos - c.pos) ↔
      d.suspends = true := by
    rw [Call.suspends_eq_true, hreach.suspendCount, hreach.sinceYield]
  have hend : d.pos = c.total ↔ ¬ d.pos < d.total := by
    have := hframe.inside hinput
    have := hreach.total
    omega
  unfold afterStep
  rw [← hreach.returned]
  simp only [hsuspends, hend]
  split
  · exact ⟨_, calls_set_self hku _, rfl, rfl⟩
  · by_cases hmore : d.pos < d.total
    · simp only [not_true_eq_false, if_false, hmore]
      exact ⟨_, calls_set_self hku _, rfl, hreach.script⟩
    · simp only [not_false_eq_true, if_true, hmore, endCall_eq]
      exact ⟨_, calls_set_self hku _, rfl, rfl⟩

end

/-- Settles O54, by the ways to leave a resume and by what follows a driver step. -/
theorem yieldsOnlyBetweenUnits : Obligations.YieldsOnlyBetweenUnits := by
  refine ⟨fun _ _ _ _ _ _ _ _ => yielded_of_resume, ?_⟩
  intro s k rest c hfaulted hscript hk hfinished
  split
  · next hinput =>
    intro d u hdriver
    obtain ⟨c', hk', hreturned⟩ := returned_of_afterStep hdriver hinput hk
    exact ⟨_, c', step_of_resume hfaulted hscript hk hfinished hinput hdriver, hk', hreturned⟩
  · next hinput =>
    rw [step_of_resume_no_input hfaulted hscript hk hfinished hinput, endCall_eq]
    exact ⟨_, _, rfl, calls_set_self hk _, rfl, rfl⟩

end Sys2Proof.Machine
end

section
/-! SUPPORT. A sound call takes its driver steps and stays sound, with the claims about the resumes of
sound calls (spec/48_host_stream_driver.md R100 to R106). -/

namespace Sys2Proof.Machine

/-! ## Driver steps of a sound call -/

/-- The spacing of the yields bounds `processed` by the last of them only (R108). -/
theorem yieldsSpaced_of_lastYield_le {gap total upTo v : Nat} {r : List Returned}
    (h : yieldsSpaced gap total upTo r) (hv : lastYield r ≤ v) : yieldsSpaced gap total v r := by
  cases r with
  | nil => trivial
  | cons y older =>
    cases y with
    | done => exact h
    | yielded p q =>
      obtain ⟨-, htotal, hgap, holder⟩ := h
      exact ⟨hv, htotal, hgap, holder⟩

theorem Call.pendingCount_none {c : Call} (h : c.pending = none) : c.pendingCount = 0 := by
  simp [Call.pendingCount, h]

theorem Call.pendingCount_some {c : Call} {b : Byte} (h : c.pending = some b) :
    c.pendingCount = 1 := by simp [Call.pendingCount, h]

section
variable {c d : Call} {s u : State}

/-- A driver step keeps the counters sound, as it advances all of them alike; the buffers remain. -/
theorem Call.Sound.of_driverFrame (hsound : c.Sound s) (hframe : DriverFrame c d s u)
    (hinput : c.pos < c.total)
    (hbuffers : match c.dir with
      | .decode => d.DecodeSound u
      | .encode => d.EncodeSound u) : d.Sound u := by
  have hreach := hframe.reachFrame
  have hforward := hreach.forward
  have hsince := hsound.since
  have hprocessed : d.processed = d.pos := by
    rw [hreach.processed, hsound.processed_eq]
    omega
  refine ⟨hprocessed, ?_, ?_, ?_, ?_, ?_⟩
  · rw [hreach.total]
    exact hframe.inside hinput
  · rw [hreach.suspendCount]
    exact hsound.suspend_pos
  · rw [hreach.returned, hreach.sinceYield, hreach.processed]
    omega
  · rw [hreach.suspendCount, hreach.total, hreach.returned, hreach.processed]
    exact yieldsSpaced_of_lastYield_le hsound.spaced (by omega)
  · rw [hreach.dir]
    exact hbuffers

/-- What a sound DECODE call has: its input whole, and an output fit for its phase. -/
theorem Call.Sound.decodeSound (hsound : c.Sound s) (hdir : c.dir = .decode) : c.DecodeSound s := by
  have h := hsound.buffers
  rwa [hdir] at h

/-- What a sound ENCODE call has: its input whole, and its output of two bytes a number. -/
theorem Call.Sound.encodeSound (hsound : c.Sound s) (hdir : c.dir = .encode) : c.EncodeSound s := by
  have h := hsound.buffers
  rwa [hdir] at h

/-- R97: a sound DECODE call with input left has a byte at `pos`. -/
theorem Call.Sound.byteAt_pos (hsound : c.Sound s) (hinput : c.pos < c.total)
    (hdir : c.dir = .decode) : ∃ b, s.byteAt c.input c.pos = some b := by
  obtain ⟨⟨bytes, hbytes, hlength⟩, -⟩ := hsound.decodeSound hdir
  exact ⟨_, State.byteAt_eq_some.2
    ⟨bytes, hbytes, List.getElem?_eq_getElem (hlength ▸ hinput)⟩⟩

/-- R97: a sound ENCODE call with input left has a number at `pos`. -/
theorem Call.Sound.numAt_pos (hsound : c.Sound s) (hinput : c.pos < c.total)
    (hdir : c.dir = .encode) : ∃ x, s.numAt c.input c.pos = some x := by
  obtain ⟨⟨nums, hnums, hlength⟩, -⟩ := hsound.encodeSound hdir
  exact ⟨_, State.numAt_eq_some.2
    ⟨nums, hnums, List.getElem?_eq_getElem (hlength ▸ hinput)⟩⟩

/-- A driver step writes no byte buffer of a DECODE call, so its input remains. -/
theorem Call.Sound.of_decode_frame (hsound : c.Sound s) (hframe : DriverFrame c d s u)
    (hinput : c.pos < c.total) (hdir : c.dir = .decode)
    (hout : ∃ out, u.numBufs[d.output]? = some out ∧
      match d.phase with
      | .skip => d.pending = none ∧ d.outCount = 0 ∧ d.lines < d.skipLineCount
      | .data =>
        2 * d.outCount + d.pendingCount + (d.total - d.pos) ≤ 2 * out.length + 1 ∧
        ∀ b, d.pending = some b → decAt b ≠ 255) : d.Sound u := by
  have hreach := hframe.reachFrame
  obtain ⟨⟨bytes, hbytes, hlength⟩, -⟩ := hsound.decodeSound hdir
  apply hsound.of_driverFrame hframe hinput
  rw [hdir]
  refine ⟨⟨bytes, ?_, hreach.total ▸ hlength⟩, hout⟩
  rw [hreach.input, hframe.buffers.1 _ (.inr hdir), hbytes]

/-- R99, R100: a sound call in its SKIP phase takes its step. -/
theorem Call.Sound.skipStep (hsound : c.Sound s) (hinput : c.pos < c.total)
    (hdir : c.dir = .decode) (hphase : c.phase = .skip) :
    ∃ d u, driverStep c s = .next (d, u) ∧ d.Sound u := by
  obtain ⟨-, out, hout, hskip⟩ := hsound.decodeSound hdir
  rw [hphase] at hskip
  obtain ⟨hpending, hcount, hlines⟩ := hskip
  obtain ⟨n, isBreak, hdriver⟩ : ∃ n isBreak, driverStep c s = .next (skipPiece n isBreak c s) := by
    obtain ⟨b, hb⟩ := hsound.byteAt_pos hinput hdir
    simp only [driverStep, hdir, hphase]
    exact ⟨_, _, skipStep_of_byte hb⟩
  by_cases hlast : (if isBreak then c.lines + 1 else c.lines) = c.skipLineCount
  · rw [skipPiece_of_last hlast] at hdriver
    refine ⟨_, _, hdriver, hsound.of_decode_frame (driverStep_frame hdriver) hinput hdir ?_⟩
    have hsized : c.output < s.numBufs.length := (List.getElem?_eq_some_iff.1 hout).1
    refine ⟨_, List.getElem?_set_self hsized, ?_, ?_⟩
    · simp only [Call.advance, Call.pendingCount, hpending, hcount, length_freshNums, if_true]
      omega
    · intro b hb
      cases hpending.symm.trans hb
  · rw [skipPiece_of_not_last hlast] at hdriver
    refine ⟨_, _, hdriver, hsound.of_decode_frame (driverStep_frame hdriver) hinput hdir ?_⟩
    refine ⟨out, hout, ?_⟩
    simp only [Call.advance, hphase]
    refine ⟨hpending, hcount, lt_of_le_of_ne ?_ hlast⟩
    split <;> omega

/-- R101: a sound call in its DATA phase takes its step, and gets no draw from the block. -/
theorem Call.Sound.dataStep (hsound : c.Sound s) (hinput : c.pos < c.total)
    (hdir : c.dir = .decode) (hphase : c.phase = .data) :
    ∃ d u, driverStep c s = .next (d, u) ∧ d.Sound u ∧ u.draws = s.draws := by
  obtain ⟨-, out, hout, hdata⟩ := hsound.decodeSound hdir
  rw [hphase] at hdata
  obtain ⟨hroom, hheld⟩ := hdata
  obtain ⟨b, hb⟩ := hsound.byteAt_pos hinput hdir
  have hdriver : driverStep c s = Machine.dataStep c s := by simp only [driverStep, hdir, hphase]
  by_cases hvalid : decAt b = 255
  · rw [dataStep_of_invalid hb hvalid] at hdriver
    refine ⟨_, _, hdriver, hsound.of_decode_frame (driverStep_frame hdriver) hinput hdir ?_, rfl⟩
    refine ⟨out, hout, ?_⟩
    simp only [Call.advance, hphase]
    simp only [Call.pendingCount] at hroom ⊢
    exact ⟨by omega, hheld⟩
  cases hpending : c.pending with
  | none =>
    rw [dataStep_of_first hb hvalid hpending] at hdriver
    refine ⟨_, _, hdriver, hsound.of_decode_frame (driverStep_frame hdriver) hinput hdir ?_, rfl⟩
    refine ⟨out, hout, ?_⟩
    simp only [Call.advance, hphase]
    rw [Call.pendingCount_none hpending] at hroom
    rw [Call.pendingCount_some rfl]
    refine ⟨by omega, ?_⟩
    rintro _ ⟨⟩
    exact hvalid
  | some first =>
    rw [Call.pendingCount_some hpending] at hroom
    obtain ⟨u, hunit, hu⟩ := decodeUnit_of_room (c := c.advance 1) (s := s.asked b)
      (first := first) (b := b) hout (show c.outCount < out.length by omega)
    rw [dataStep_of_second hb hvalid hpending, hunit] at hdriver
    have hu := hu (hheld first hpending) hvalid
    refine ⟨_, u, hdriver, hsound.of_decode_frame (driverStep_frame hdriver) hinput hdir ?_,
      by rw [hu]; rfl⟩
    have hsized : c.output < s.numBufs.length := (List.getElem?_eq_some_iff.1 hout).1
    refine ⟨_, by rw [hu]; exact List.getElem?_set_self hsized, ?_⟩
    simp only [Call.advance, hphase]
    rw [Call.pendingCount_none rfl, List.length_set]
    exact ⟨by omega, nofun⟩

/-- R103: a sound ENCODE call takes its step, and gets no draw from the block. -/
theorem Call.Sound.encodeStep (hsound : c.Sound s) (hinput : c.pos < c.total)
    (hdir : c.dir = .encode) :
    ∃ d u, driverStep c s = .next (d, u) ∧ d.Sound u ∧ u.draws = s.draws := by
  obtain ⟨⟨nums, hnums, hlength⟩, ⟨out, hout, hroom⟩, hpending⟩ := hsound.encodeSound hdir
  obtain ⟨x, hx⟩ := hsound.numAt_pos hinput hdir
  have hdriver : driverStep c s = Machine.encodeStep c s := by simp only [driverStep, hdir]
  obtain ⟨u, hstep, hu⟩ := encodeStep_of_room hx hout (by omega)
  rw [hstep] at hdriver
  refine ⟨_, u, hdriver, hsound.of_driverFrame (driverStep_frame hdriver) hinput ?_, by rw [hu]⟩
  rw [hdir]
  have hsized : c.output < s.byteBufs.length := (List.getElem?_eq_some_iff.1 hout).1
  refine ⟨⟨nums, by rw [hu]; exact hnums, hlength⟩,
    ⟨_, by rw [hu]; exact List.getElem?_set_self hsized, by simp [Call.advance, hroom]⟩, hpending⟩

/-- A sound call with input left takes its driver step and stays sound; only at the end of the SKIP
phase are values drawn, for the fresh output (R100). -/
theorem Call.Sound.driverStep (hsound : c.Sound s) (hinput : c.pos < c.total) :
    ∃ d u, driverStep c s = .next (d, u) ∧ d.Sound u ∧ (c.phase = .data → u.draws = s.draws) := by
  cases hdir : c.dir with
  | encode =>
    obtain ⟨d, u, hstep, hsound', hdraws⟩ := hsound.encodeStep hinput hdir
    exact ⟨d, u, hstep, hsound', fun _ => hdraws⟩
  | decode =>
    cases hphase : c.phase with
    | skip =>
      obtain ⟨d, u, hstep, hsound'⟩ := hsound.skipStep hinput hdir hphase
      exact ⟨d, u, hstep, hsound', nofun⟩
    | data =>
      obtain ⟨d, u, hstep, hsound', hdraws⟩ := hsound.dataStep hinput hdir hphase
      exact ⟨d, u, hstep, hsound', fun _ => hdraws⟩

/-- A step of a resume reaches a sound call from a sound one, without a draw in the DATA
phase. -/
theorem Call.Sound.reaches (hsound : c.Sound s) (hreach : c.Reaches s d u) :
    d.Sound u ∧ (c.phase = .data → u.draws = s.draws) := by
  by_cases hinput : c.pos < c.total
  · obtain ⟨d', u', hstep, h⟩ := hsound.driverStep hinput
    have hstep' := (Call.reaches_of_input hinput).1 hreach
    obtain ⟨rfl, rfl⟩ : d = d' ∧ u = u' := by simpa [hstep'] using hstep
    exact h
  · obtain ⟨rfl, rfl⟩ := (Call.reaches_of_no_input hinput).1 hreach
    exact ⟨hsound, fun _ => rfl⟩

/-- R100, R101: a sound DECODE call has produced no more than its output holds. -/
theorem Call.Sound.outCount_le (hsound : c.Sound s) (hdir : c.dir = .decode) :
    ∃ out, s.numBufs[c.output]? = some out ∧ c.outCount ≤ out.length := by
  obtain ⟨-, out, hout, hphase⟩ := hsound.decodeSound hdir
  refine ⟨out, hout, ?_⟩
  split at hphase
  · obtain ⟨-, hcount, -⟩ := hphase
    omega
  · obtain ⟨hroom, -⟩ := hphase
    omega

end

/-- Settles O57: what a resume reaches it reaches without a draw, and leaving it draws nothing. -/
theorem driverNeverDrawsInData : Obligations.DriverNeverDrawsInData := by
  intro s t k rest c hinv hscript hk hphase hstep
  obtain ⟨-, c₀, d, u, hk₀, hfinished, hreach, hleaves⟩ := step_resume_cases hscript hstep
  obtain rfl : c = c₀ := Option.some.inj (hk.symm.trans hk₀)
  have hsound := hinv.sound c (List.mem_of_getElem? hk) hfinished
  obtain ⟨-, hdraws⟩ := hsound.reaches hreach
  rw [← hdraws hphase]
  cases hleaves with
  | yields | goesOn => rfl
  | ends => rw [endCall_eq]

/-- R105: trimming a DECODE output keeps its first `outCount` elements. -/
theorem State.trimOutput_decode {c : Call} {s : State} {out : List Word64} (hdir : c.dir = .decode)
    (hout : s.numBufs[c.output]? = some out) :
    (s.trimOutput c).numBufs = s.numBufs.set c.output (out.take c.outCount) := by
  simp only [State.trimOutput, hdir, State.withNums_numBufs]
  rw [List.modify_eq_set_getElem?, hout]
  rfl

/-- R103: an ENCODE output is never trimmed. -/
theorem State.trimOutput_encode {c : Call} {s : State} (hdir : c.dir = .encode) :
    s.trimOutput c = s := by simp only [State.trimOutput, hdir]

/-- Settles O55: a call that ends is sound where its last step left it, at the end of its input. -/
theorem doneDeliversTheWholeOutput : Obligations.DoneDeliversTheWholeOutput := by
  intro s t k rest c c' hinv hscript hstep hk hfinished hk' hfinished'
  obtain ⟨-, c₀, d, u, hk₀, -, hreach, hleaves⟩ := step_resume_cases hscript hstep
  obtain rfl : c = c₀ := Option.some.inj (hk.symm.trans hk₀)
  have hframe := hreach.frame
  have hku : u.calls[k]? = some c := by rw [hframe.calls, hk]
  obtain ⟨hsound, -⟩ := (hinv.sound c (List.mem_of_getElem? hk) hfinished).reaches hreach
  cases hleaves with
  | yields =>
    obtain rfl : d.yield = c' := Option.some.inj ((calls_set_self hku _).symm.trans hk')
    cases hfinished'
  | goesOn =>
    obtain rfl : d = c' := Option.some.inj ((calls_set_self hku _).symm.trans hk')
    rw [hframe.finished, hfinished] at hfinished'
    cases hfinished'
  | ends _ hmore =>
    rw [endCall_eq] at hk' ⊢
    obtain rfl : d.finish = c' := Option.some.inj ((calls_set_self hku _).symm.trans hk')
    have hpos : d.pos = c.total := by
      have := hsound.pos_le
      have := hframe.total
      omega
    refine ⟨d, u, hreach, by rw [← hframe.returned]; rfl, hframe.dir, hframe.output, hframe.total,
      hpos, hsound.processed_eq.trans hpos, rfl, rfl, ?_⟩
    split
    · next hdir =>
      rw [← hframe.dir] at hdir
      obtain ⟨out, hout, hle⟩ := hsound.outCount_le hdir
      rw [← hframe.output]
      exact ⟨out, hout, hle, State.trimOutput_decode hdir hout⟩
    · next hdir =>
      rw [← hframe.dir] at hdir
      obtain ⟨-, ⟨out, hout, hlength⟩, -⟩ := hsound.encodeSound hdir
      refine ⟨by rw [State.trimOutput_encode hdir], out, ?_, hframe.total ▸ hlength⟩
      rw [← hframe.output]
      exact hout

/-- The end of a call changes its own output and nothing else of the buffers (R105). -/
theorem onlyOutputChanges_endCall {k : Nat} {c d : Call} {rest : List HostStep} {s : State}
    (hdir : d.dir = c.dir) (houtput : d.output = c.output) :
    c.OnlyOutputChanges s (endCall k d rest s) := by
  obtain ⟨hbytes, hnums⟩ := (State.trimOutput_frame d s).2
  rw [hdir, houtput] at hbytes hnums
  exact ⟨hbytes, hnums⟩

/-- Settles O56: a sound call takes its driver step, and the three ways to leave the resume are the
three clauses. -/
theorem unfinishedCallsResume : Obligations.UnfinishedCallsResume := by
  intro s k rest c hinv hscript hk hfinished
  by_cases hinput : c.pos < c.total
  · obtain ⟨d, u, hdriver, -, -⟩ :=
      (hinv.sound c (List.mem_of_getElem? hk) hfinished).driverStep hinput
    have hframe := driverStep_frame hdriver
    have hreach := hframe.reachFrame
    refine ⟨_, step_of_resume hinv.unmarked hscript hk hfinished hinput hdriver, ?_⟩
    rw [if_pos hinput]
    refine ⟨d, u, hdriver, hframe.consumes, hframe.inside hinput, hreach.returned, hframe.buffers,
      hframe.state, ?_⟩
    simp only [← hreach.suspendCount, ← Call.suspends_eq_true, ← hreach.total, ← hreach.returned,
      ← hreach.calls, afterStep]
    split
    · rfl
    · split
      · rfl
      · exact ⟨onlyOutputChanges_endCall hreach.dir hreach.output, endCall_eq _ _ _ _⟩
  · refine ⟨_, step_of_resume_no_input hinv.unmarked hscript hk hfinished hinput, ?_⟩
    rw [if_neg hinput]
    exact ⟨onlyOutputChanges_endCall rfl rfl, endCall_eq _ _ _ _⟩

end Sys2Proof.Machine
end

section
/-! SUPPORT. Every step keeps the invariant of the machine (spec/48_host_stream_driver.md R96 to
R108). -/

namespace Sys2Proof.Machine

/-! ## What the invariant reads of a state -/

/-- The input and the output of the call are kept with their lengths. -/
def Call.KeepsBuffers (c : Call) (s t : State) : Prop :=
  match c.dir with
  | .decode => SameLength s.byteBufs t.byteBufs c.input ∧ SameLength s.numBufs t.numBufs c.output
  | .encode => SameLength s.numBufs t.numBufs c.input ∧ SameLength s.byteBufs t.byteBufs c.output

section
variable {c d : Call} {s t : State}

/-- Of the buffers a sound call needs the lengths only. -/
theorem Call.Sound.of_keepsBuffers (hsound : c.Sound s) (hkeeps : c.KeepsBuffers s t) :
    c.Sound t := by
  refine { hsound with buffers := ?_ }
  unfold Call.KeepsBuffers at hkeeps
  cases hdir : c.dir with
  | decode =>
    rw [hdir] at hkeeps
    obtain ⟨⟨bytes, hbytes, hlength⟩, out, hout, hphase⟩ := hsound.decodeSound hdir
    obtain ⟨bytes', hbytes', hsame⟩ := hkeeps.1 bytes hbytes
    obtain ⟨out', hout', hsame'⟩ := hkeeps.2 out hout
    exact ⟨⟨bytes', hbytes', hsame.trans hlength⟩, out', hout', by rwa [hsame']⟩
  | encode =>
    rw [hdir] at hkeeps
    obtain ⟨⟨nums, hnums, hlength⟩, ⟨out, hout, hlength'⟩, hpending⟩ := hsound.encodeSound hdir
    obtain ⟨nums', hnums', hsame⟩ := hkeeps.1 nums hnums
    obtain ⟨out', hout', hsame'⟩ := hkeeps.2 out hout
    exact ⟨⟨nums', hnums', hsame.trans hlength⟩, ⟨out', hout', hsame'.trans hlength'⟩, hpending⟩

/-- Soundness reads the buffers of a state and nothing else of it. -/
theorem Call.Sound.of_buffers_eq (hsound : c.Sound s) (hbytes : t.byteBufs = s.byteBufs)
    (hnums : t.numBufs = s.numBufs) : c.Sound t := by
  apply hsound.of_keepsBuffers
  unfold Call.KeepsBuffers
  rw [hbytes, hnums]
  split <;> exact ⟨.refl _ _, .refl _ _⟩

theorem Call.keepsBuffers_of_all (hbytes : ∀ buf, SameLength s.byteBufs t.byteBufs buf)
    (hnums : ∀ buf, SameLength s.numBufs t.numBufs buf) : c.KeepsBuffers s t := by
  unfold Call.KeepsBuffers
  split
  · exact ⟨hbytes _, hnums _⟩
  · exact ⟨hnums _, hbytes _⟩

/-- R96: separateness of two unfinished calls, in terms of their buffers. Calls of one direction
have outputs of one kind; of two directions, the output of the one is of the kind of the other's
input. -/
theorem Call.separate_iff :
    c.Separate d ↔ (c.finished = false → d.finished = false →
      (c.dir = d.dir → c.output ≠ d.output) ∧ (c.dir ≠ d.dir → c.output ≠ d.input)) := by
  simp only [Call.Separate, Call.fillsBytes, Call.readsBytes, Call.fillsNums, Call.readsNums]
  cases c.finished
  · cases d.finished
    · cases c.dir <;> cases d.dir <;> simp <;> exact ne_comm
    · simp
  · simp

/-- R96: a call that writes its own output only keeps the buffers of every call separate from it. -/
theorem Call.Separate.keepsBuffers (hseparate : c.Separate d) (hc : c.finished = false)
    (hd : d.finished = false) (honly : c.OnlyOutputChanges s t) : d.KeepsBuffers s t := by
  obtain ⟨houtput, hinput⟩ := Call.separate_iff.1 hseparate hc hd
  obtain ⟨hbytes, hnums⟩ := honly
  unfold Call.KeepsBuffers
  cases hdc : c.dir <;> cases hdd : d.dir
  · exact ⟨.of_eq (hbytes _ (.inr hdc)), .of_eq (hnums _ (.inl (houtput (by simp [*])).symm))⟩
  · exact ⟨.of_eq (hnums _ (.inl (hinput (by simp [*])).symm)), .of_eq (hbytes _ (.inr hdc))⟩
  · exact ⟨.of_eq (hbytes _ (.inl (hinput (by simp [*])).symm)), .of_eq (hnums _ (.inr hdc))⟩
  · exact ⟨.of_eq (hnums _ (.inr hdc)), .of_eq (hbytes _ (.inl (houtput (by simp [*])).symm))⟩

theorem Call.OnlyOutputChanges.trans {u : State} (h : c.OnlyOutputChanges s t)
    (h' : c.OnlyOutputChanges t u) : c.OnlyOutputChanges s u :=
  ⟨fun buf hbuf => (h'.1 buf hbuf).trans (h.1 buf hbuf),
    fun buf hbuf => (h'.2 buf hbuf).trans (h.2 buf hbuf)⟩

/-- The first call has the direction and the buffers of the second, and ends no later. -/
structure Call.HoldsNoMore (c' c : Call) : Prop where
  dir : c'.dir = c.dir
  input : c'.input = c.input
  output : c'.output = c.output
  unfinished : c'.finished = false → c.finished = false

theorem Call.HoldsNoMore.refl (c : Call) : c.HoldsNoMore c := ⟨rfl, rfl, rfl, id⟩

/-- Separate calls stay so as they go on and end. -/
theorem Call.Separate.of_holdsNoMore {c' d' : Call} (h : c.Separate d) (hc : c'.HoldsNoMore c)
    (hd : d'.HoldsNoMore d) : c'.Separate d' := by
  rw [Call.separate_iff] at h ⊢
  intro hcf hdf
  rw [hc.dir, hc.output, hd.dir, hd.output, hd.input]
  exact h (hc.unfinished hcf) (hd.unfinished hdf)

/-! ## The ways a step changes the calls -/

/-- A step that keeps the calls keeps the invariant, for the lengths of the buffers remain. -/
theorem State.Inv.of_keepsCalls (hinv : s.Inv) (hkeeps : s.KeepsCalls t) : t.Inv where
  unmarked := hkeeps.faulted.trans hinv.unmarked
  sound c hc hfinished := by
    rw [hkeeps.calls] at hc
    exact (hinv.sound c hc hfinished).of_keepsBuffers
      (Call.keepsBuffers_of_all hkeeps.bytes hkeeps.nums)
  separate := hkeeps.calls ▸ hinv.separate
  once := hkeeps.calls ▸ hinv.once

/-- A new call keeps the invariant if it is sound and separate from the others, whose buffers
remain. -/
theorem State.Inv.of_newCall (hinv : s.Inv) (hfaulted : t.faulted = s.faulted)
    (hcalls : t.calls = s.calls ++ [c]) (hreturned : c.returned = [])
    (hbytes : ∀ buf, SameLength s.byteBufs t.byteBufs buf)
    (hnums : ∀ buf, SameLength s.numBufs t.numBufs buf) (hsound : c.Sound t)
    (hseparate : ∀ d ∈ s.calls, d.Separate c ∧ c.Separate d) : t.Inv where
  unmarked := hfaulted.trans hinv.unmarked
  sound d hd hfinished := by
    rw [hcalls, List.mem_append, List.mem_singleton] at hd
    obtain hd | rfl := hd
    · exact (hinv.sound d hd hfinished).of_keepsBuffers (Call.keepsBuffers_of_all hbytes hnums)
    · exact hsound
  separate := by
    rw [hcalls, List.pairwise_append]
    refine ⟨hinv.separate, List.pairwise_singleton _ _, fun d hd e he => ?_⟩
    rw [List.mem_singleton.1 he]
    exact hseparate d hd
  once d hd := by
    rw [hcalls, List.mem_append, List.mem_singleton] at hd
    obtain hd | rfl := hd
    · exact hinv.once d hd
    · simp [hreturned]

/-- Two calls at different places of the list are separate. -/
theorem State.Inv.separate_of_ne (hinv : s.Inv) {j k : Nat} (hne : j ≠ k)
    (hj : s.calls[j]? = some d) (hk : s.calls[k]? = some c) : c.Separate d := by
  obtain ⟨hj', rfl⟩ := List.getElem?_eq_some_iff.1 hj
  obtain ⟨hk', rfl⟩ := List.getElem?_eq_some_iff.1 hk
  have hpairs := List.pairwise_iff_getElem.1 hinv.separate
  obtain hlt | hlt := Nat.lt_or_gt_of_ne hne
  · exact (hpairs j k hj' hk' hlt).2
  · exact (hpairs k j hk' hj' hlt).1

/-- Setting one call to one that holds no more keeps the calls separate. -/
theorem State.Inv.separate_set (hinv : s.Inv) {k : Nat} {c' : Call} (hk : s.calls[k]? = some c)
    (hholds : c'.HoldsNoMore c) :
    (s.calls.set k c').Pairwise fun c d => c.Separate d ∧ d.Separate c := by
  have hentry : ∀ j (hj : j < (s.calls.set k c').length),
      ((s.calls.set k c')[j]).HoldsNoMore (s.calls[j]'(by simpa using hj)) := by
    intro j hj
    rw [List.getElem_set]
    split
    · next h =>
      subst h
      obtain ⟨_, rfl⟩ := List.getElem?_eq_some_iff.1 hk
      exact hholds
    · exact .refl _
  refine List.pairwise_iff_getElem.2 fun i j hi hj hlt => ?_
  obtain ⟨hij, hji⟩ := List.pairwise_iff_getElem.1 hinv.separate i j (by simpa using hi)
    (by simpa using hj) hlt
  exact ⟨hij.of_holdsNoMore (hentry i hi) (hentry j hj),
    hji.of_holdsNoMore (hentry j hj) (hentry i hi)⟩

/-- A step that changes one call keeps the invariant if that call stays sound while unfinished, and
the buffers of the calls separate from it remain. -/
theorem State.Inv.of_setCall (hinv : s.Inv) {k : Nat} {c' : Call} (hk : s.calls[k]? = some c)
    (hcalls : t.calls = s.calls.set k c') (hfaulted : t.faulted = s.faulted)
    (hholds : c'.HoldsNoMore c) (hsound : c'.finished = false → c'.Sound t)
    (honce : Returned.done ∉ c'.returned.tail)
    (hothers : ∀ d, c.Separate d → d.finished = false → d.KeepsBuffers s t) : t.Inv where
  unmarked := hfaulted.trans hinv.unmarked
  sound d hd hfinished := by
    rw [hcalls] at hd
    obtain ⟨j, hj⟩ := List.mem_iff_getElem?.1 hd
    by_cases hne : k = j
    · subst hne
      rw [calls_set_self hk, Option.some.injEq] at hj
      subst hj
      exact hsound hfinished
    · rw [List.getElem?_set_ne hne] at hj
      exact (hinv.sound d (List.mem_of_getElem? hj) hfinished).of_keepsBuffers
        (hothers d (hinv.separate_of_ne (Ne.symm hne) hj hk) hfinished)
  separate := hcalls ▸ hinv.separate_set hk hholds
  once d hd := by
    rw [hcalls] at hd
    obtain hd | rfl := List.mem_or_eq_of_mem_set hd
    · exact hinv.once d hd
    · exact honce

/-! ## The four host steps about calls -/

/-- R97, R109: what a DECODE call that starts has asked for. -/
theorem inputs_of_startDecode {input skip suspend : Nat}
    (hstart : startDecode input skip suspend s = .next t) :
    suspend ≠ 0 ∧ s.bytesFilling input = false ∧ ∃ bytes, s.byteBufs[input]? = some bytes := by
  unfold startDecode at hstart
  split at hstart
  · cases hstart
  next hsuspend =>
  split at hstart
  · cases hstart
  next hfilling =>
  obtain ⟨bytes, hinput, -⟩ := orRefuse_eq_next.1 hstart
  exact ⟨hsuspend, Bool.eq_false_iff.2 hfilling, bytes, hinput⟩

/-- R97, R109: what an ENCODE call that starts has asked for. -/
theorem inputs_of_startEncode {input suspend : Nat}
    (hstart : startEncode input suspend s = .next t) :
    suspend ≠ 0 ∧ s.numsFilling input = false ∧ ∃ nums, s.numBufs[input]? = some nums := by
  unfold startEncode at hstart
  split at hstart
  · cases hstart
  next hsuspend =>
  split at hstart
  · cases hstart
  next hfilling =>
  obtain ⟨nums, hinput, -⟩ := orRefuse_eq_next.1 hstart
  exact ⟨hsuspend, Bool.eq_false_iff.2 hfilling, nums, hinput⟩

/-- A buffer that a sound DECODE call has exists. -/
theorem Call.Sound.decode_lt (hsound : c.Sound s) (hdir : c.dir = .decode) :
    c.input < s.byteBufs.length ∧ c.output < s.numBufs.length := by
  obtain ⟨⟨bytes, hbytes, -⟩, out, hout, -⟩ := hsound.decodeSound hdir
  exact ⟨(List.getElem?_eq_some_iff.1 hbytes).1, (List.getElem?_eq_some_iff.1 hout).1⟩

/-- A buffer that a sound ENCODE call has exists. -/
theorem Call.Sound.encode_lt (hsound : c.Sound s) (hdir : c.dir = .encode) :
    c.input < s.numBufs.length ∧ c.output < s.byteBufs.length := by
  obtain ⟨⟨nums, hnums, -⟩, ⟨out, hout, -⟩, -⟩ := hsound.encodeSound hdir
  exact ⟨(List.getElem?_eq_some_iff.1 hnums).1, (List.getElem?_eq_some_iff.1 hout).1⟩

theorem Dir.ne_decode_iff {x : Dir} : x ≠ .decode ↔ x = .encode := by cases x <;> decide
theorem Dir.ne_encode_iff {x : Dir} : x ≠ .encode ↔ x = .decode := by cases x <;> decide

/-- R96: a DECODE call whose output is a new buffer, and whose input no unfinished call fills, is
separate from all calls. -/
theorem State.Inv.separate_newDecode (hinv : s.Inv) (hdir : c.dir = .decode)
    (hfilling : s.bytesFilling c.input = false) (houtput : c.output = s.numBufs.length)
    (hd : d ∈ s.calls) : d.Separate c ∧ c.Separate d := by
  simp only [Call.separate_iff, hdir, houtput]
  refine ⟨fun hdf _ => ⟨fun hdd => ?_, fun hdd hsame => ?_⟩,
    fun _ hdf => ⟨fun hdd => ?_, fun hdd => ?_⟩⟩
  · exact ((hinv.sound d hd hdf).decode_lt hdd).2.ne
  · exact Bool.eq_false_iff.1 hfilling
      (State.bytesFilling_eq_true.2 ⟨d, hd, hdf, Dir.ne_decode_iff.1 hdd, hsame⟩)
  · exact ((hinv.sound d hd hdf).decode_lt hdd.symm).2.ne'
  · exact ((hinv.sound d hd hdf).encode_lt (Dir.ne_decode_iff.1 hdd.symm)).1.ne'

/-- R96: the same of an ENCODE call. -/
theorem State.Inv.separate_newEncode (hinv : s.Inv) (hdir : c.dir = .encode)
    (hfilling : s.numsFilling c.input = false) (houtput : c.output = s.byteBufs.length)
    (hd : d ∈ s.calls) : d.Separate c ∧ c.Separate d := by
  simp only [Call.separate_iff, hdir, houtput]
  refine ⟨fun hdf _ => ⟨fun hdd => ?_, fun hdd hsame => ?_⟩,
    fun _ hdf => ⟨fun hdd => ?_, fun hdd => ?_⟩⟩
  · exact ((hinv.sound d hd hdf).encode_lt hdd).2.ne
  · exact Bool.eq_false_iff.1 hfilling
      (State.numsFilling_eq_true.2 ⟨d, hd, hdf, Dir.ne_encode_iff.1 hdd, hsame⟩)
  · exact ((hinv.sound d hd hdf).encode_lt hdd.symm).2.ne'
  · exact ((hinv.sound d hd hdf).decode_lt (Dir.ne_encode_iff.1 hdd.symm)).1.ne'

/-- R97, R100: the start of a DECODE call keeps the invariant. -/
theorem State.Inv.of_startDecode {rest : List HostStep} {input skip suspend : Nat} (hinv : s.Inv)
    (hscript : s.script = .startDecode input skip suspend :: rest) (hstep : step s = .next t)
    (hstart : startDecode input skip suspend (s.withScript rest) = .next t) : t.Inv := by
  obtain ⟨hsuspend, hfilling, bytes, hinput⟩ := inputs_of_startDecode hstart
  have hstarts :=
    decodeCallStarts s input skip suspend rest bytes hinv.unmarked hscript hfilling hinput
  rw [if_neg hsuspend] at hstarts
  obtain ⟨t', out, hstep', ht, hlength⟩ := hstarts
  obtain rfl : t = t' := by simpa [hstep] using hstep'
  rw [ht]
  refine hinv.of_newCall rfl rfl rfl (.refl _) (.append _ _) ?_
    fun d => hinv.separate_newDecode rfl hfilling rfl
  refine ⟨rfl, Nat.zero_le _, Nat.one_le_iff_ne_zero.2 hsuspend, rfl, trivial,
    ⟨bytes, hinput, rfl⟩, out, by simp, ?_⟩
  obtain rfl | hskip := Nat.eq_zero_or_pos skip
  · rw [if_neg (lt_irrefl 0)] at hlength
    exact ⟨show 2 * 0 + 0 + (bytes.length - 0) ≤ 2 * out.length + 1 by omega, nofun⟩
  · simp [hskip]

/-- R97, R103: the start of an ENCODE call keeps the invariant. -/
theorem State.Inv.of_startEncode {rest : List HostStep} {input suspend : Nat} (hinv : s.Inv)
    (hscript : s.script = .startEncode input suspend :: rest) (hstep : step s = .next t)
    (hstart : startEncode input suspend (s.withScript rest) = .next t) : t.Inv := by
  obtain ⟨hsuspend, hfilling, nums, hinput⟩ := inputs_of_startEncode hstart
  have hstarts := encodeCallStarts s input suspend rest nums hinv.unmarked hscript hfilling hinput
  rw [if_neg hsuspend] at hstarts
  obtain ⟨t', out, hstep', ht, hlength⟩ := hstarts
  obtain rfl : t = t' := by simpa [hstep] using hstep'
  rw [ht]
  refine hinv.of_newCall rfl rfl rfl (.append _ _) (.refl _) ?_
    fun d => hinv.separate_newEncode rfl hfilling rfl
  exact ⟨rfl, Nat.zero_le _, Nat.one_le_iff_ne_zero.2 hsuspend, rfl, trivial,
    ⟨nums, hinput, rfl⟩, ⟨out, by simp, hlength⟩, rfl⟩

/-- R109: the progress that is written is that of a finished call, of which the invariant asks only
that Done came last. -/
theorem State.Inv.of_writeProgress {k processed total : Nat} {rest : List HostStep} (hinv : s.Inv)
    (hwrite : writeProgress k processed total (s.withScript rest) = .next t) : t.Inv := by
  obtain ⟨c, hk, hwrite⟩ := orRefuse_eq_next.1 hwrite
  split at hwrite
  · next hfinished =>
    cases hwrite
    have hunchanged : Call.finished { c with processed := processed, total := total } = true :=
      hfinished
    refine hinv.of_setCall hk rfl rfl ⟨rfl, rfl, rfl, id⟩ (fun h => ?_)
      (hinv.once c (List.mem_of_getElem? hk))
      (fun d _ _ => Call.keepsBuffers_of_all (.refl _) (.refl _))
    rw [hunchanged] at h
    cases h
  · cases hwrite

/-- R105: an unfinished call has not returned Done. -/
theorem State.Inv.done_not_mem (hinv : s.Inv) (hc : c ∈ s.calls) (hfinished : c.finished = false) :
    Returned.done ∉ c.returned := by
  have honce := hinv.once c hc
  unfold Call.finished at hfinished
  cases hreturned : c.returned with
  | nil => simp
  | cons r older =>
    rw [hreturned] at honce hfinished
    cases r with
    | done => cases hfinished
    | yielded => simpa using honce

/-- R108: a call that yields stays sound: it counts from here, and the yield is far enough from the
one before. -/
theorem Call.Sound.yield (hsound : c.Sound s) (hsuspends : c.suspends = true) :
    c.yield.Sound s := by
  obtain ⟨-, hcount⟩ := Call.suspends_eq_true.1 hsuspends
  have hsince := hsound.since
  refine { hsound with
    since := rfl
    spaced := ⟨le_rfl, rfl, show c.suspendCount ≤ c.processed by omega, ?_⟩ }
  exact yieldsSpaced_of_lastYield_le hsound.spaced
    (show lastYield c.returned ≤ c.processed - c.suspendCount by omega)

/-- R99 to R105: a step of a `resume()` keeps the invariant. -/
theorem State.Inv.of_resume {k : Nat} {rest : List HostStep} (hinv : s.Inv)
    (hresume : resumeCall k rest s = .next t) : t.Inv := by
  obtain ⟨c, d, u, hk, hfinished, hreach, hleaves⟩ := resumeCall_cases hresume
  have hmem := List.mem_of_getElem? hk
  have hframe := hreach.frame
  obtain ⟨hsound, -⟩ := (hinv.sound c hmem hfinished).reaches hreach
  have hdone : Returned.done ∉ d.returned := hframe.returned ▸ hinv.done_not_mem hmem hfinished
  cases hleaves with
  | yields _ hsuspends =>
    refine hinv.of_setCall (c' := d.yield) hk (by rw [← hframe.calls]; rfl) hframe.faulted
      ⟨hframe.dir, hframe.input, hframe.output, fun _ => hfinished⟩
      (fun _ => (hsound.yield hsuspends).of_buffers_eq rfl rfl) hdone
      fun e hseparate he => hseparate.keepsBuffers hfinished he hframe.buffers
  | goesOn =>
    refine hinv.of_setCall hk (by rw [← hframe.calls]; rfl) hframe.faulted
      ⟨hframe.dir, hframe.input, hframe.output, fun _ => hfinished⟩
      (fun _ => hsound.of_buffers_eq rfl rfl) (fun h => hdone (List.mem_of_mem_tail h))
      fun e hseparate he => hseparate.keepsBuffers hfinished he hframe.buffers
  | ends =>
    have honly : c.OnlyOutputChanges u (endCall k d rest u) :=
      onlyOutputChanges_endCall hframe.dir hframe.output
    refine hinv.of_setCall (c' := d.finish) hk (by rw [endCall_eq, ← hframe.calls])
      (by rw [endCall_eq]; exact hframe.faulted)
      ⟨hframe.dir, hframe.input, hframe.output, fun _ => hfinished⟩
      nofun hdone
      fun e hseparate he => hseparate.keepsBuffers hfinished he (hframe.buffers.trans honly)

end

/-- Settles O41: the four host steps about calls keep the invariant, and so does a step that keeps
the calls. -/
theorem invariantKeptByStep : Obligations.InvariantKeptByStep := by
  intro s t hinv hstep
  obtain ⟨-, h, rest, hscript, hhost⟩ := step_eq_next.1 hstep
  obtain hkeeps | ⟨_, _, _, rfl, hstart⟩ | ⟨_, _, rfl, hstart⟩ | ⟨_, _, _, rfl, hwrite⟩ |
    ⟨_, rfl, hresume⟩ := hostStep_cases hhost
  · exact hinv.of_keepsCalls hkeeps
  · exact hinv.of_startDecode hscript hstep hstart
  · exact hinv.of_startEncode hscript hstep hstart
  · exact hinv.of_writeProgress hwrite
  · exact hinv.of_resume hresume

end Sys2Proof.Machine
end

section
/-! SUPPORT. The chunk size does not reach a call's output (spec/48_host_stream_driver.md R107): two runs
that differ in it take the same driver steps, one by one, until the input is at its end. -/

namespace Sys2Proof.Machine

/-! ## Driver steps do not read the chunk size -/

/-- The same call with other chunks: its suspend count, its yields and the count since the last. -/
def Call.withChunks (sinceYield suspendCount : Nat) (returned : List Returned) (c : Call) : Call :=
  { c with sinceYield := sinceYield, suspendCount := suspendCount, returned := returned }

/-- The same block and buffers with another host's list and other calls. -/
def State.withHost (script : List HostStep) (calls : List Call) (s : State) : State :=
  { s with script := script, calls := calls }

section
variable {c d : Call} {s u : State} {script : List HostStep} {calls : List Call}

/-- Calls without their chunks are equal exactly when the one is the other with its own chunks. -/
theorem Call.withoutChunks_eq_iff :
    c.withoutChunks = d.withoutChunks ↔
      d = c.withChunks d.sinceYield d.suspendCount d.returned := by
  cases c
  cases d
  simp [Call.withoutChunks, Call.withChunks, eq_comm]

theorem Call.counters_eq_of_withoutChunks (h : c.withoutChunks = d.withoutChunks) :
    c.pos = d.pos ∧ c.total = d.total := by
  rw [Call.withoutChunks_eq_iff.1 h]
  exact ⟨rfl, rfl⟩

/-- The block answers a request from its buses and draws alone (R23). -/
theorem issue_withHost {w : Request} (h : issue w s = .next u) :
    issue w (s.withHost script calls) = .next (u.withHost script calls) := by
  unfold issue serve at h ⊢
  obtain ⟨st, data, he⟩ | ⟨width, he⟩ | he := exec_shape (decodeRequest w)
  · cases (he (s.present w)).symm.trans h
    exact he _
  · cases (he (s.present w)).symm.trans h
    exact he _
  · cases (he (s.present w)).symm.trans h

theorem putNum_withHost {buf i : Nat} {v : Word64} (h : s.putNum buf i v = some u) :
    (s.withHost script calls).putNum buf i v = some (u.withHost script calls) := by
  obtain ⟨nums, hnums, hi, rfl⟩ := State.putNum_eq_some.1 h
  exact State.putNum_eq_some.2 ⟨nums, hnums, hi, rfl⟩

theorem putSlot_withHost {buf o : Nat} {data : Word64} (h : s.putSlot buf o data = some u) :
    (s.withHost script calls).putSlot buf o data = some (u.withHost script calls) := by
  obtain ⟨bytes, hbytes, ho, rfl⟩ := State.putSlot_eq_some.1 h
  exact State.putSlot_eq_some.2 ⟨bytes, hbytes, ho, rfl⟩

variable {y q : Nat} {r : List Returned}

/-- R99: a piece of the SKIP phase reads no chunk. -/
theorem skipPiece_withChunks (n : Nat) (isBreak : Bool) :
    ∃ y', skipPiece n isBreak (c.withChunks y q r) (s.withHost script calls) =
      ((skipPiece n isBreak c s).1.withChunks y' q r,
        (skipPiece n isBreak c s).2.withHost script calls) := by
  refine ⟨y + n, ?_⟩
  by_cases hlast : (if isBreak then c.lines + 1 else c.lines) = c.skipLineCount
  · rw [skipPiece_of_last hlast, skipPiece_of_last (c := c.withChunks y q r) hlast]
    rfl
  · rw [skipPiece_of_not_last hlast, skipPiece_of_not_last (c := c.withChunks y q r) hlast]
    rfl

/-- R101: a unit is decoded without reading a chunk. -/
theorem decodeUnit_withChunks {b0 b1 : Byte} (h : decodeUnit b0 b1 c s = .next (d, u)) :
    decodeUnit b0 b1 (c.withChunks y q r) (s.withHost script calls) =
      .next (d.withChunks y q r, u.withHost script calls) := by
  obtain ⟨s1, s2, hissue, hput, he⟩ := decodeUnit_eq_next.1 h
  cases he
  exact decodeUnit_eq_next.2 ⟨_, _, issue_withHost hissue, putNum_withHost hput, rfl⟩

/-- A driver step reads no chunk, and of the chunks changes the count since the last yield only. -/
theorem driverStep_withChunks (h : driverStep c s = .next (d, u)) :
    ∃ y', driverStep (c.withChunks y q r) (s.withHost script calls) =
      .next (d.withChunks y' q r, u.withHost script calls) := by
  have hdir : (c.withChunks y q r).dir = c.dir := rfl
  have hphase : (c.withChunks y q r).phase = c.phase := rfl
  unfold driverStep at h ⊢
  rw [hdir, hphase]
  split at h
  · obtain ⟨x, s1, s2, hx, hissue, hput, he⟩ := encodeStep_eq_next.1 h
    cases he
    exact ⟨y + 1, encodeStep_eq_next.2
      ⟨x, _, _, hx, issue_withHost hissue, putSlot_withHost hput, rfl⟩⟩
  split at h
  · obtain ⟨b, hb, he⟩ := skipStep_eq_next.1 h
    obtain ⟨y', hpiece⟩ := skipPiece_withChunks (c := c) (s := s) (script := script)
      (calls := calls) (y := y) (q := q) (r := r) (if c.atCrLf s then 2 else 1)
      (b == byteCR || b == byteLF)
    rw [← he] at hpiece
    exact ⟨y', skipStep_eq_next.2 ⟨b, hb, hpiece.symm⟩⟩
  · obtain ⟨b, s1, hb, hissue, hcases⟩ := dataStep_eq_next.1 h
    have hissue' := issue_withHost (script := script) (calls := calls) hissue
    refine ⟨y + 1, dataStep_eq_next.2 ⟨b, _, hb, hissue', ?_⟩⟩
    obtain ⟨hinvalid, he⟩ | ⟨hvalid, hpending, he⟩ | ⟨hvalid, first, hpending, hunit⟩ := hcases
    · cases he
      exact .inl ⟨hinvalid, rfl⟩
    · cases he
      exact .inr (.inl ⟨hvalid, hpending, rfl⟩)
    · exact .inr (.inr ⟨hvalid, first, hpending, decodeUnit_withChunks hunit⟩)

end

/-! ## Two runs of one call -/

/-- The two states differ at most in the host's list and in the calls. -/
def State.SameBlock (s t : State) : Prop := t = s.withHost t.script t.calls

section
variable {c d c' d' : Call} {s t u v : State}

theorem State.SameBlock.byteBufs (h : s.SameBlock t) : t.byteBufs = s.byteBufs := by rw [h]; rfl
theorem State.SameBlock.numBufs (h : s.SameBlock t) : t.numBufs = s.numBufs := by rw [h]; rfl

/-- From calls that differ in their chunks, a step of a `resume()` reaches such calls again. -/
theorem Call.Reaches.withoutChunks (hcalls : c.withoutChunks = d.withoutChunks)
    (hblock : s.SameBlock t) (hc : c.Reaches s c' u) (hd : d.Reaches t d' v) :
    c'.withoutChunks = d'.withoutChunks ∧ u.SameBlock v := by
  obtain ⟨hpos, htotal⟩ := Call.counters_eq_of_withoutChunks hcalls
  by_cases hinput : c.pos < c.total
  · rw [Call.reaches_of_input hinput] at hc
    rw [Call.reaches_of_input (hpos ▸ htotal ▸ hinput)] at hd
    obtain ⟨y', hd'⟩ := driverStep_withChunks (script := t.script) (calls := t.calls)
      (y := d.sinceYield) (q := d.suspendCount) (r := d.returned) hc
    rw [← Call.withoutChunks_eq_iff.1 hcalls, ← hblock, hd] at hd'
    cases hd'
    exact ⟨rfl, rfl⟩
  · rw [Call.reaches_of_no_input hinput] at hc
    rw [Call.reaches_of_no_input (hpos ▸ htotal ▸ hinput)] at hd
    obtain ⟨rfl, rfl⟩ := hc
    obtain ⟨rfl, rfl⟩ := hd
    exact ⟨hcalls, hblock⟩

/-- R105: what is trimmed at the end does not depend on chunks. -/
theorem State.SameBlock.trimOutput (hcalls : c.withoutChunks = d.withoutChunks)
    (hblock : s.SameBlock t) :
    (s.trimOutput c).byteBufs = (t.trimOutput d).byteBufs ∧
      (s.trimOutput c).numBufs = (t.trimOutput d).numBufs := by
  rw [Call.withoutChunks_eq_iff.1 hcalls, hblock]
  unfold State.trimOutput
  cases hdir : c.dir <;> simp only [Call.withChunks, hdir] <;> exact ⟨rfl, rfl⟩

end

section
variable {k : Nat} {c d : Call} {s t u : State} {rest : List HostStep}

/-- Nothing but resumes of call `k` is left on the host's list. -/
def State.OnlyResumes (k : Nat) (s : State) : Prop := ∀ h ∈ s.script, h = .resume k

/-- A step of such a state is a step of a `resume()`, and such a state follows. -/
theorem State.OnlyResumes.step (hs : s.OnlyResumes k) (hstep : step s = .next t) :
    t.OnlyResumes k ∧ ∃ rest c d u, s.calls[k]? = some c ∧ c.finished = false ∧
      c.Reaches s d u ∧ Leaves k rest c d u t := by
  obtain ⟨-, h, rest, hscript, -⟩ := step_eq_next.1 hstep
  unfold State.OnlyResumes at hs ⊢
  rw [hscript, List.forall_mem_cons] at hs
  obtain ⟨rfl, hrest⟩ := hs
  obtain ⟨-, c, d, u, hk, hfinished, hreach, hleaves⟩ := step_resume_cases hscript hstep
  refine ⟨?_, rest, c, d, u, hk, hfinished, hreach, hleaves⟩
  cases hleaves with
  | yields => exact hrest
  | goesOn =>
    rw [State.withCalls_script, hreach.frame.script, hscript, List.forall_mem_cons]
    exact ⟨rfl, hrest⟩
  | ends =>
    rw [endCall_eq]
    exact hrest

/-- R105: when the call has ended no further resume of it is answered. -/
theorem State.OnlyResumes.run_of_finished {n : Nat} (hs : s.OnlyResumes k)
    (hk : s.calls[k]? = some c) (hfinished : c.finished = true) (hrun : runSteps n s = .next t) :
    t = s := by
  cases n with
  | zero =>
    cases hrun
    rfl
  | succ n =>
    obtain ⟨s1, hstep, -⟩ := andThen_eq_next.1 hrun
    obtain ⟨-, _, c₁, _, _, hk₁, hfinished₁, -⟩ := hs.step hstep
    obtain rfl : c = c₁ := Option.some.inj (hk.symm.trans hk₁)
    rw [hfinished] at hfinished₁
    cases hfinished₁

/-- The call has an end to come, so a run to its end takes a step. -/
theorem State.OnlyResumes.run_of_unfinished {n : Nat} {c' : Call} {s' : State}
    (hs : s.OnlyResumes k) (hk : s.calls[k]? = some c) (hfinished : c.finished = false)
    (hrun : runSteps n s = .next s') (hk' : s'.calls[k]? = some c') (hend : c'.finished = true) :
    ∃ m t rest d u, n = m + 1 ∧ t.OnlyResumes k ∧ c.Reaches s d u ∧ Leaves k rest c d u t ∧
      runSteps m t = .next s' := by
  cases n with
  | zero =>
    cases hrun
    obtain rfl : c = c' := Option.some.inj (hk.symm.trans hk')
    rw [hfinished] at hend
    cases hend
  | succ m =>
    obtain ⟨t, hstep, hrun'⟩ := andThen_eq_next.1 hrun
    obtain ⟨ht, rest, c₁, d, u, hk₁, -, hreach, hleaves⟩ := hs.step hstep
    obtain rfl : c = c₁ := Option.some.inj (hk.symm.trans hk₁)
    exact ⟨m, t, rest, d, u, rfl, ht, hreach, hleaves, hrun'⟩

/-- Once the input is at its end, the run leaves the buffers that the step reached, trimmed: by the
end there, or by the one that the resume after a last yield comes to. -/
theorem Leaves.buffers_of_run {n : Nat} {c' : Call} {s' : State}
    (hleaves : Leaves k rest c d u t) (hmore : ¬ d.pos < d.total) (hku : u.calls[k]? = some c)
    (ht : t.OnlyResumes k) (hrun : runSteps n t = .next s') (hk' : s'.calls[k]? = some c')
    (hend : c'.finished = true) :
    s'.byteBufs = (u.trimOutput d).byteBufs ∧ s'.numBufs = (u.trimOutput d).numBufs := by
  cases hleaves with
  | goesOn _ _ hmore' => exact absurd hmore' hmore
  | ends =>
    rw [ht.run_of_finished (calls_set_self hku _) d.finished_finish hrun]
    exact ⟨rfl, rfl⟩
  | yields =>
    obtain ⟨m, t', rest', d', u', -, ht', hreach, hleaves, hrun'⟩ :=
      ht.run_of_unfinished (calls_set_self hku _) d.finished_yield hrun hk' hend
    obtain ⟨rfl, rfl⟩ := (Call.reaches_of_no_input (c := d.yield) hmore).1 hreach
    cases hleaves with
    | yields hinput | goesOn hinput => exact absurd hinput hmore
    | ends =>
      have hk'' := calls_set_self (calls_set_self hku d.yield) d.yield.finish
      rw [ht'.run_of_finished hk'' (Call.finished_finish _) hrun']
      exact State.SameBlock.trimOutput rfl rfl

/-- With input left the call goes on, yielding or not. -/
theorem Leaves.of_more (hleaves : Leaves k rest c d u t) (hmore : d.pos < d.total)
    (hfinished : d.finished = false) :
    ∃ d', d'.withoutChunks = d.withoutChunks ∧ d'.finished = false ∧ u.SameBlock t ∧
      t.calls = u.calls.set k d' := by
  cases hleaves with
  | yields => exact ⟨d.yield, rfl, rfl, rfl, rfl⟩
  | goesOn => exact ⟨d, rfl, hfinished, rfl, rfl⟩
  | ends _ hmore' => exact absurd hmore hmore'

end

section
variable {α β : Type} {R : α → β → Prop} {l₁ : List α} {l₂ : List β} {k : Nat} {a : α} {b : β}

/-- Related lists have related entries. -/
theorem forall₂_getElem? (h : List.Forall₂ R l₁ l₂) (ha : l₁[k]? = some a) :
    ∃ b, l₂[k]? = some b ∧ R a b := by
  obtain ⟨hk, rfl⟩ := List.getElem?_eq_some_iff.1 ha
  have hk' : k < l₂.length := h.length_eq ▸ hk
  exact ⟨l₂[k], List.getElem?_eq_getElem hk', h.get hk hk'⟩

/-- Related entries may be set in related lists. -/
theorem forall₂_set (h : List.Forall₂ R l₁ l₂) (hab : R a b) (k : Nat) :
    List.Forall₂ R (l₁.set k a) (l₂.set k b) := by
  induction h generalizing k with
  | nil => exact .nil
  | cons hxy hrest ih =>
    cases k with
    | zero => exact .cons hab hrest
    | succ k => exact .cons hxy (ih k)

end

/-- R107, by induction on the first run: while input is left both runs take the same driver step,
and at the end of the input both trim the same buffers. -/
theorem sameBuffers_of_runs {k : Nat} (n₁ : Nat) : ∀ {n₂ : Nat} {s t s' t' : State} {c d : Call},
    State.SameButChunks s t → s.OnlyResumes k → t.OnlyResumes k →
    runSteps n₁ s = .next s' → runSteps n₂ t = .next t' →
    s'.calls[k]? = some c → t'.calls[k]? = some d → c.finished = true → d.finished = true →
    s'.byteBufs = t'.byteBufs ∧ s'.numBufs = t'.numBufs := by
  induction n₁ with
  | zero =>
    rintro n₂ s t s' t' c d ⟨hblock, hcalls⟩ hs ht hrun hrun' hc hd hcf hdf
    cases hrun
    obtain ⟨d₀, hd₀, -, hsame⟩ := forall₂_getElem? hcalls hc
    rw [ht.run_of_finished hd₀ (hsame ▸ hcf) hrun']
    exact ⟨(State.SameBlock.byteBufs hblock).symm, (State.SameBlock.numBufs hblock).symm⟩
  | succ n₁ ih =>
    rintro n₂ s t s' t' c d ⟨hblock, hcalls⟩ hs ht hrun hrun' hc hd hcf hdf
    obtain ⟨s1, hstep, hrun⟩ := andThen_eq_next.1 hrun
    obtain ⟨hs1, rest, c₀, c₁, u, hc₀, hunfinished, hreach, hleaves⟩ := hs.step hstep
    obtain ⟨d₀, hd₀, hchunks₀, hsame⟩ := forall₂_getElem? hcalls hc₀
    obtain ⟨n₂, t1, rest', d₁, v, rfl, ht1, hreach', hleaves', hrun'⟩ :=
      ht.run_of_unfinished hd₀ (hsame ▸ hunfinished) hrun' hd hdf
    obtain ⟨hchunks₁, hblock₁⟩ := Call.Reaches.withoutChunks hchunks₀ hblock hreach hreach'
    have hframe := hreach.frame
    have hframe' := hreach'.frame
    obtain ⟨hpos, htotal⟩ := Call.counters_eq_of_withoutChunks hchunks₁
    by_cases hmore : c₁.pos < c₁.total
    · obtain ⟨c₂, hc₂, hcf₂, hblock₂, hcalls₂⟩ :=
        hleaves.of_more hmore (hframe.finished.trans hunfinished)
      obtain ⟨d₂, hd₂, hdf₂, hblock₂', hcalls₂'⟩ :=
        hleaves'.of_more (hpos ▸ htotal ▸ hmore) (hframe'.finished.trans (hsame ▸ hunfinished))
      refine ih ⟨?_, ?_⟩ hs1 ht1 hrun hrun' hc hd hcf hdf
      · rw [State.SameBlock] at hblock₁ hblock₂ hblock₂'
        rw [hblock₂', hblock₁, hblock₂]
        rfl
      · rw [hcalls₂, hcalls₂', hframe.calls, hframe'.calls]
        exact forall₂_set hcalls ⟨hc₂.trans (hchunks₁.trans hd₂.symm), hcf₂.trans hdf₂.symm⟩ k
    · obtain ⟨hbytes, hnums⟩ :=
        hleaves.buffers_of_run hmore (hframe.calls ▸ hc₀) hs1 hrun hc hcf
      obtain ⟨hbytes', hnums'⟩ :=
        hleaves'.buffers_of_run (hpos ▸ htotal ▸ hmore) (hframe'.calls ▸ hd₀) ht1 hrun' hd hdf
      obtain ⟨hbytes₁, hnums₁⟩ := State.SameBlock.trimOutput hchunks₁ hblock₁
      rw [hbytes, hbytes', hnums, hnums']
      exact ⟨hbytes₁, hnums₁⟩

/-- Settles O59: lists of resumes of one call are lists of nothing else. -/
theorem outputDoesNotDependOnChunks : Obligations.OutputDoesNotDependOnChunks := by
  intro s t s' t' k m₁ m₂ n₁ n₂ c d hsame hs ht hrun hrun' hc hd hcf hdf
  exact sameBuffers_of_runs n₁ hsame (fun h hh => List.eq_of_mem_replicate (hs ▸ hh))
    (fun h hh => List.eq_of_mem_replicate (ht ▸ hh)) hrun hrun' hc hd hcf hdf

end Sys2Proof.Machine
end

section
/-! SUPPORT. Op 7 and the mark that it leaves, and that nothing else can end abnormally
(spec/60_exceptions.md R110 and R112; spec/30_encoding.md R57). -/

namespace Sys2Proof.Machine

/-- R57: op 7 is the reserved row, whatever its operand field. -/
theorem decodeRequest_op7 (opnd : Word64) : decodeRequest (mkRequest 7 opnd) = .reserved := by
  rw [decodeRequest, op_mkRequest]
  rfl

/-- R112: the reserved row is the fault ILLEGAL_OP in every state. -/
theorem exec_reserved (s : State) : exec .reserved s = .fault (.illegalOp s.illegalOp) := rfl

/-- R112: op 7 marks the state; besides the mark it moves only the response bus and the count of
draws. -/
theorem State.illegalOp_frame (s : State) :
    s.illegalOp =
      { s with faulted := true, rsp := s.illegalOp.rsp, draws := s.illegalOp.draws } := rfl

/-- R112: a marked state takes no step but the fault, and keeps its mark. -/
theorem step_of_faulted {s : State} (hfaulted : s.faulted = true) :
    step s = .fault (.illegalOp s) := if_pos hfaulted

/-- R57, R127: op 7 is no operation that a host may issue. -/
theorem not_wellFormed_reserved : ¬ Instr.reserved.WellFormed := Bool.false_ne_true

/-- Settles O31: the state that op 7 leaves is `State.illegalOp`. -/
theorem reservedOperationFaults : Obligations.ReservedOperationFaults :=
  ⟨fun opnd s => ⟨decodeRequest_op7 opnd, s.illegalOp, exec_reserved s, s.illegalOp_faulted,
    s.illegalOp_frame⟩, fun _ => step_of_faulted⟩

/-- Settles O32: of all that `exec` can do only the reserved row's fault is no next state, and that
row is not well-formed. -/
theorem everyOperationCompletes : Obligations.EveryOperationCompletes := by
  intro i s hwf
  obtain ⟨st, data, -, hexec⟩ | ⟨width, hexec⟩ | ⟨rfl, -⟩ := exec_cases i s
  · exact ⟨s.respond st data, hexec⟩
  · exact ⟨s.respondDraw width, hexec⟩
  · exact absurd hwf not_wellFormed_reserved

end Sys2Proof.Machine
end
